-- ==== Sys2Proof/Word.lean ====
section
/-! DEFINITION. The two word widths of the block: bytes, and 32-bit identifiers (00_scope.md R8, R10). -/

namespace Sys2Proof

/-- "A byte is an unsigned 8-bit value in 0..255" (R8). -/
abbrev Byte := BitVec 8

/-- The 16 identifier bits a standard data frame carries (R73). -/
abbrev Word16 := BitVec 16

/-- A 32-bit unsigned identifier or mask (R10: "exact on 32-bit unsigned values"). -/
abbrev Word32 := BitVec 32

end Sys2Proof
end

