-- ==== Sys2Proof/Config.lean ====
section
/-! DEFINITION. The implementation parameters of 00_scope.md R7, the types of the open ones, and the free
values (opaque constants with no body: nothing can be proved about their values). -/

namespace Sys2Proof

/-- Identifier kind: the 11-bit and the 29-bit identifier spaces (R11, R93). -/
inductive IdKind where
  | standard
  | extended
deriving DecidableEq, Repr

/-- The four operating modes R95 names. -/
inductive CanMode where
  | normal
  | loopback
  | silent
  | loopbackSilent
deriving DecidableEq, Repr

/-- `SinkError` of R7: the OPEN type of the byte sink's failure values.
DESIGN CHOICE (log entry 1): endlessly many distinguishable values; no operation looks inside one. -/
structure SinkError where
  tag : Nat
deriving DecidableEq, Repr

/-- What the outgoing-byte sink answers, `Result<Ok, Err>` (42_session.md R190). -/
inductive SinkAnswer where
  | ok
  | err (e : SinkError)
deriving DecidableEq, Repr, Inhabited

namespace Config

/-- `RXBUF_CAP` (R7). -/
abbrev rxBufCap : Nat := 20
/-- `STATUS_LEN` (R7). -/
abbrev statusLen : Nat := 20
/-- `CONFIG_LEN` (R7). -/
abbrev configLen : Nat := 20
/-- `MAX_DLC` (R7). -/
abbrev maxDlc : Nat := 8
/-- `STD_ID_MAX` (R7): 11 bits. -/
abbrev stdIdMax : Word32 := 0x7FF
/-- `EXT_ID_MAX` (R7): 29 bits. -/
abbrev extIdMax : Word32 := 0x1FFFFFFF
/-- `START_BYTE` (R7). -/
abbrev startByte : Byte := 0xAA
/-- `SECOND_CMD_BYTE` (R7): the second byte of status reports and commands. -/
abbrev secondCmdByte : Byte := 0x55
/-- `EOF_BYTE` (R7): the terminator of a data frame. -/
abbrev eofByte : Byte := 0x55
/-- `STATUS_DISC` (R7). -/
abbrev statusDisc : Byte := 0x04
/-- `CONFIG_DISC` (R7). -/
abbrev configDisc : Byte := 0x12
/-- `FILTER_DISC` (R7). -/
abbrev filterDisc : Byte := 0x10
/-- `MAX_FILTER_IDS` (R7, decision D11). -/
abbrev maxFilterIds : Nat := 255

/-- FREE VALUE (decision D16, log entry 8): whether the `n`-th draw lets an INIT succeed. -/
opaque initSucceeds : Nat → Bool

/-- FREE VALUE (decision D15, log entry 9): the byte sink's answer at the `n`-th draw. -/
opaque byteSinkAnswer : Nat → SinkAnswer

/-- FREE VALUE (decision D8, log entry 7): what byte `i` of the receive buffer of INIT number `epoch` reads as
while no FEED has written it. -/
opaque unwrittenByte : (epoch i : Nat) → Byte

/-- FREE VALUE, `CFG_CODES` of R7 (decision D14, log entry 15): the codes of the twelve baud-rate selectors. -/
opaque baudCode : Fin 12 → Byte

/-- FREE VALUE, `CFG_CODES` (decision D14): the codes of the identifier kinds in a configuration message. -/
opaque idKindCode : IdKind → Byte

/-- FREE VALUE, `CFG_CODES` (decision D14): the codes of the operating modes. -/
opaque modeCode : CanMode → Byte

end Config

end Sys2Proof
end

