-- ==== Sys2Proof/Syntax.lean ====
section
/-! DEFINITION. The instructions: one constructor per row of spec/opcode_table.json (30_encoding.md R70 to R90).
The block has two ports. Host records (R88, R89) arrive on `Port.host`; serial bytes arrive on `Port.wire`, where a
wire row of the table stands for the FEEDs of its bytes (R92; log entry 3). -/

namespace Sys2Proof

/-- Where bytes are presented to the block: a host command record, or serial bytes. -/
inductive Port where
  | host
  | wire
deriving DecidableEq, Repr

/-- The operand of INIT: which sinks are attached (42_session.md R191). -/
structure Sinks where
  frame  : Bool
  status : Bool
  byte   : Bool
deriving DecidableEq, Repr

/-- One constructor per row of the opcode table. DLC and count are the lengths of the lists they count. -/
inductive Instr where
  /-- FEED (R140): the input byte. -/
  | feed (b : Byte)
  /-- ENC_FRAME (R111): kind, identifier, the 8-bit dlc operand and the eight data slots. -/
  | encFrame (kind : IdKind) (id : Word32) (dlc : Byte) (data : List Byte)
  /-- ENC_CONFIG (R112). -/
  | encConfig (baud kind : Byte) (filterId maskId : Word32) (mode : Byte)
  /-- ENC_FILTER (R113). -/
  | encFilter (ids : List Word32)
  /-- ENC_CANCEL (R114). -/
  | encCancel
  /-- INIT (R191). -/
  | init (sinks : Sinks)
  /-- DEINIT (R192). -/
  | deinit
  /-- ill-formed_host_record (R90): the bytes of a record that spells no operation. -/
  | illFormedRecord (record : List Byte)
  /-- DATA_FRAME_STD (R73): control-byte bit 4, identifier, data, and the byte in the terminator's place. -/
  | dataFrameStd (bit4 : Bool) (id : Word16) (data : List Byte) (eof : Byte)
  /-- DATA_FRAME_EXT (R74). -/
  | dataFrameExt (bit4 : Bool) (id : Word32) (data : List Byte) (eof : Byte)
  /-- STATUS_REPORT (R79): reserved byte 3, rxErr, txErr, the 13 reserved bytes and the byte in the checksum's place. -/
  | statusReport (rsv0 rxErr txErr : Byte) (rsv1 : List Byte) (sum : Byte)
  /-- CONFIG_MSG (R76): the five fields, the byte in the constant's place, four reserved bytes, the checksum's place. -/
  | configMsg (baud kind : Byte) (filterId maskId : Word32) (mode const : Byte) (rsv : List Byte) (sum : Byte)
  /-- FILTER_ENABLE (R77): the ids and the byte in the checksum's place. -/
  | filterEnable (ids : List Word32) (sum : Byte)
  /-- FILTER_CANCEL (R78). -/
  | filterCancel
  /-- reserved__CTRL_DLC_INVALID (R87, R143): a control byte whose DLC field is 9..15. -/
  | ctrlDlcInvalid (ctrl : Byte)
  /-- reserved__FRAMEINFO_UNRECOGNIZED (R87, R143): an index-1 byte that is neither 0x55 nor a control byte. -/
  | frameInfoUnrecognized (b : Byte)
  /-- reserved__STATUS_PATH_OTHER_DISC (R87, R148): an index-2 byte other than 0x04 on the status path. -/
  | statusPathOtherDisc (disc : Byte)
deriving DecidableEq, Repr

/-- The port an instruction's bytes are presented on. -/
def Instr.port : Instr → Port
  | .feed _ | .encFrame .. | .encConfig .. | .encFilter _ | .encCancel | .init _ | .deinit | .illFormedRecord _ => .host
  | .dataFrameStd .. | .dataFrameExt .. | .statusReport .. | .configMsg .. | .filterEnable .. | .filterCancel
  | .ctrlDlcInvalid _ | .frameInfoUnrecognized _ | .statusPathOtherDisc _ => .wire

/-- A Configuration record (R95): named values. -/
structure Configuration where
  mode     : CanMode
  idKind   : IdKind
  baud     : Fin 12
  filterId : Word32
  maskId   : Word32
deriving DecidableEq, Repr

/-- The ENC_CONFIG operation for a Configuration record: the parameter `CFG_CODES` gives the three raw codes (R95). -/
def Configuration.toInstr (c : Configuration) : Instr :=
  .encConfig (Config.baudCode c.baud) (Config.idKindCode c.idKind) c.filterId c.maskId (Config.modeCode c.mode)

end Sys2Proof
end

