-- ==== Sys2Proof/WellFormed.lean ====
section
/-! DEFINITION. Well-formedness: which terms of `Instr` an encoding can spell (30_encoding.md R72 to R79, R87 to R90).
The conditions on a message's CONTENT that the receive machine itself checks (terminator, checksum, identifier range)
or that nothing on the receive path checks (constants, count at least 1) are no part of it; they stand in
`Machine/Flags.lean`, `contentValid` (log entry 4). -/

namespace Sys2Proof

/-- A host record that spells an operation, by the lengths and field conditions of R89 and R90. -/
def recordWellFormed : List Byte → Bool
  | [] => false
  | op :: args =>
    if op = 0x01 then args.length == 1
    else if op = 0x02 then args.length == 14 && (args.headD 0 == 0x00 || args.headD 0 == 0x01)
    else if op = 0x03 then args.length == 11
    else if op = 0x04 then !args.isEmpty && args.length == 1 + 4 * (args.headD 0).toNat
    else if op = 0x05 then args.length == 0
    else if op = 0x06 then args.length == 1 && (args.headD 0) &&& 0xF8 == 0x00
    else if op = 0x07 then args.length == 0
    else false

/-- The check, one line per constructor. -/
def Instr.wf : Instr → Bool
  | .feed _ => true
  | .encFrame _ _ _ data => data.length == 8
  | .encConfig .. => true
  | .encFilter ids => ids.length ≤ Config.maxFilterIds
  | .encCancel => true
  | .init _ => true
  | .deinit => true
  | .illFormedRecord record => !recordWellFormed record
  | .dataFrameStd _ _ data _ => data.length ≤ Config.maxDlc
  | .dataFrameExt _ _ data _ => data.length ≤ Config.maxDlc
  | .statusReport _ _ _ rsv1 _ => rsv1.length == 13
  | .configMsg _ _ _ _ _ _ rsv _ => rsv.length == 4
  | .filterEnable ids sum => decide (ids.length ≤ Config.maxFilterIds) && !(ids.isEmpty && sum == 0x10)
  | .filterCancel => true
  | .ctrlDlcInvalid ctrl => ctrl &&& 0xC0 == 0xC0 && decide (Config.maxDlc < (ctrl &&& 0x0F).toNat)
  | .frameInfoUnrecognized b => b != Config.secondCmdByte && b &&& 0xC0 != 0xC0
  | .statusPathOtherDisc disc => disc != Config.statusDisc

end Sys2Proof
end

