-- ==== Sys2Proof/Decode.lean ====
section
/-! DEFINITION. The decoder of both ports, total on any bytes, and after it the encoder (30_encoding.md R70 to R90). -/

namespace Sys2Proof

/-! ### Bit fields and byte order -/

/-- Bits 7:6 of a control byte are `11` (R72, R85). -/
def isControlByte (b : Byte) : Bool := b &&& 0xC0 == 0xC0

/-- The DLC field, bits 3:0 of a control byte (R72, 90_conflicts.md C1). -/
def dlcField (b : Byte) : BitVec 4 := b.extractLsb' 0 4

/-- The identifier kind, bit 5 of a control byte, where 1 is Extended (R72, R83). -/
def kindField (b : Byte) : IdKind := if b.getLsbD 5 then .extended else .standard

/-- Bit 4 of a control byte, which no field holds (R72). -/
def bit4Field (b : Byte) : Bool := b.getLsbD 4

/-- `LE_2` (R8, R52). -/
def le16 (w : Word16) : List Byte := [w.extractLsb' 0 8, w.extractLsb' 8 8]

/-- `LE_4` (R8, R52). -/
def le32 (w : Word32) : List Byte := [w.extractLsb' 0 8, w.extractLsb' 8 8, w.extractLsb' 16 8, w.extractLsb' 24 8]

/-- The 16-bit word two little-endian bytes give. -/
def word16 (b0 b1 : Byte) : Word16 := b0.setWidth 16 ||| b1.setWidth 16 <<< 8

/-- `id0 | id1<<8 | id2<<16 | id3<<24` (R27, R82). -/
def word32 (b0 b1 b2 b3 : Byte) : Word32 :=
  b0.setWidth 32 ||| b1.setWidth 32 <<< 8 ||| b2.setWidth 32 <<< 16 ||| b3.setWidth 32 <<< 24

/-- The 32-bit words of a byte list, four bytes each (R52: "count×(4-byte LE id)"). -/
def words32 : List Byte → List Word32
  | b0 :: b1 :: b2 :: b3 :: rest => word32 b0 b1 b2 b3 :: words32 rest
  | _ => []

/-! ### Host records (R88 to R90) -/

/-- Why a record spells no operation (R90). -/
inductive HostReject where
  /-- The record has no bytes. -/
  | empty
  /-- Byte 0 is 0x00 or 0x08..0xFF. -/
  | unknownOperation (op : Byte)
  /-- The record is shorter or longer than R89 gives. -/
  | wrongLength (op : Byte)
  /-- ENC_FRAME with kind 0x02 or above. -/
  | badKind (kind : Byte)
  /-- INIT with any of bits 7:3 set. -/
  | reservedSinkBits (sinks : Byte)
deriving DecidableEq, Repr

/-- The identifier kind of an ENC_FRAME record: 0x00 standard, 0x01 extended (R89). -/
def kindOperand (kind : Byte) : Except HostReject IdKind :=
  if kind = 0x00 then .ok .standard else if kind = 0x01 then .ok .extended else .error (.badKind kind)

/-- The operands of ENC_FRAME: kind, id, dlc, data (R89). -/
def hostEncFrame : List Byte → Except HostReject Instr
  | kind :: i0 :: i1 :: i2 :: i3 :: dlc :: data =>
    if data.length = 8 then (kindOperand kind).map fun k => .encFrame k (word32 i0 i1 i2 i3) dlc data
    else .error (.wrongLength 0x02)
  | _ => .error (.wrongLength 0x02)

/-- The operands of ENC_CONFIG (R89). -/
def hostEncConfig : List Byte → Except HostReject Instr
  | [baud, kind, f0, f1, f2, f3, m0, m1, m2, m3, mode] =>
    .ok (.encConfig baud kind (word32 f0 f1 f2 f3) (word32 m0 m1 m2 m3) mode)
  | _ => .error (.wrongLength 0x03)

/-- The operands of ENC_FILTER: the count and the ids (R89). -/
def hostEncFilter : List Byte → Except HostReject Instr
  | n :: ids => if ids.length = 4 * n.toNat then .ok (.encFilter (words32 ids)) else .error (.wrongLength 0x04)
  | [] => .error (.wrongLength 0x04)

/-- The operand of INIT: bit 0 frame sink, bit 1 status sink, bit 2 byte sink, bits 7:3 zero (R89, R90). -/
def hostInit : List Byte → Except HostReject Instr
  | [b] =>
    if b &&& 0xF8 = 0 then .ok (.init ⟨b.getLsbD 0, b.getLsbD 1, b.getLsbD 2⟩) else .error (.reservedSinkBits b)
  | _ => .error (.wrongLength 0x06)

/-- The operation a host record spells, or the name of what is wrong with it (R88 to R90). -/
def hostOperation : List Byte → Except HostReject Instr
  | [] => .error .empty
  | op :: args =>
    if op = 0x01 then match args with
      | [b] => .ok (.feed b)
      | _ => .error (.wrongLength op)
    else if op = 0x02 then hostEncFrame args
    else if op = 0x03 then hostEncConfig args
    else if op = 0x04 then hostEncFilter args
    else if op = 0x05 then (if args = [] then .ok .encCancel else .error (.wrongLength op))
    else if op = 0x06 then hostInit args
    else if op = 0x07 then (if args = [] then .ok .deinit else .error (.wrongLength op))
    else .error (.unknownOperation op)

/-- The instruction of a whole host record: one that spells no operation is the row ill-formed_host_record. -/
def decodeHost (record : List Byte) : Instr :=
  match hostOperation record with
  | .ok i => i
  | .error _ => .illFormedRecord record

/-! ### Wire messages (R70 to R79, R85 to R87) -/

/-- What follows 0xAA and a control byte: the message and the bytes after it, where the message is whole (R73, R74, R86).
A DLC of 9..15 is the reserved row, two bytes long. -/
def wireDataFrame (ctrl : Byte) (rest : List Byte) : Option (Instr × List Byte) :=
  let dlc := (dlcField ctrl).toNat
  if Config.maxDlc < dlc then some (.ctrlDlcInvalid ctrl, rest)
  else match kindField ctrl, rest with
    | .standard, i0 :: i1 :: body =>
      match body.drop dlc with
      | eof :: more => some (.dataFrameStd (bit4Field ctrl) (word16 i0 i1) (body.take dlc) eof, more)
      | [] => none
    | .extended, i0 :: i1 :: i2 :: i3 :: body =>
      match body.drop dlc with
      | eof :: more => some (.dataFrameExt (bit4Field ctrl) (word32 i0 i1 i2 i3) (body.take dlc) eof, more)
      | [] => none
    | _, _ => none

/-- What follows AA 55 04 (R79). -/
def wireStatusReport : List Byte → Option (Instr × List Byte)
  | rsv0 :: rxErr :: txErr :: body =>
    match body.drop 13 with
    | sum :: more => some (.statusReport rsv0 rxErr txErr (body.take 13) sum, more)
    | [] => none
  | _ => none

/-- What follows AA 55 12 (R76). -/
def wireConfigMsg : List Byte → Option (Instr × List Byte)
  | baud :: kind :: f0 :: f1 :: f2 :: f3 :: m0 :: m1 :: m2 :: m3 :: mode :: const :: body =>
    match body.drop 4 with
    | sum :: more =>
      some (.configMsg baud kind (word32 f0 f1 f2 f3) (word32 m0 m1 m2 m3) mode const (body.take 4) sum, more)
    | [] => none
  | _ => none

/-- What follows AA 55 10: enable (R77), or the fixed cancel message 00 10 (R78). -/
def wireFilter : List Byte → Option (Instr × List Byte)
  | count :: body =>
    match body.drop (4 * count.toNat) with
    | sum :: more =>
      if count = 0 ∧ sum = 0x10 then some (.filterCancel, more)
      else some (.filterEnable (words32 (body.take (4 * count.toNat))) sum, more)
    | [] => none
  | [] => none

/-- What follows AA 55: by the discriminator. A discriminator other than 0x04 with no whole message of its own row
is the reserved row STATUS_PATH_OTHER_DISC, three bytes long (R85, R87). -/
def wireStatusPath : List Byte → Option (Instr × List Byte)
  | [] => none
  | disc :: rest =>
    if disc = Config.statusDisc then wireStatusReport rest
    else if disc = Config.configDisc then some ((wireConfigMsg rest).getD (.statusPathOtherDisc disc, rest))
    else if disc = Config.filterDisc then some ((wireFilter rest).getD (.statusPathOtherDisc disc, rest))
    else some (.statusPathOtherDisc disc, rest)

/-- A wire row at the head of serial bytes, and the bytes after it. -/
def wireMessage : List Byte → Option (Instr × List Byte)
  | start :: b :: rest =>
    if start = Config.startByte then
      if b = Config.secondCmdByte then wireStatusPath rest
      else if isControlByte b then wireDataFrame b rest
      else some (.frameInfoUnrecognized b, rest)
    else none
  | _ => none

/-- The next instruction of a run of serial bytes and the bytes after it: a wire row where one stands whole, else the
FEED of the first byte (log entry 5). Only an empty run gives none. -/
def decodeWire : List Byte → Option (Instr × List Byte)
  | [] => none
  | b :: rest => some ((wireMessage (b :: rest)).getD (.feed b, rest))

/-- The decoder: the instruction at the head of what a port presents, and what is left. -/
def decode : Port → List Byte → Option (Instr × List Byte)
  | .host, record => some (decodeHost record, [])
  | .wire, bytes => decodeWire bytes

/-! ### The encoder -/

/-- The control byte of a data frame: `0xC0 | EXT<<5 | bit4<<4 | DLC` (R72). -/
def wireControlByte (kind : IdKind) (bit4 : Bool) (dlc : Nat) : Byte :=
  0xC0 ||| (match kind with | .standard => 0x00 | .extended => 0x20) ||| (if bit4 then 0x10 else 0x00) ||| BitVec.ofNat 8 dlc

/-- The kind operand of an ENC_FRAME record (R89). -/
def kindByte : IdKind → Byte
  | .standard => 0x00
  | .extended => 0x01

/-- The operand byte of INIT (R89). -/
def sinksByte (s : Sinks) : Byte :=
  (if s.frame then 0x01 else 0x00) ||| (if s.status then 0x02 else 0x00) ||| (if s.byte then 0x04 else 0x00)

/-- The bytes of an instruction: its host record (R89), or its wire message (R73 to R79). -/
def encode : Instr → List Byte
  | .feed b => [0x01, b]
  | .encFrame kind id dlc data => [0x02, kindByte kind] ++ le32 id ++ [dlc] ++ data
  | .encConfig baud kind filterId maskId mode => [0x03, baud, kind] ++ le32 filterId ++ le32 maskId ++ [mode]
  | .encFilter ids => [0x04, BitVec.ofNat 8 ids.length] ++ ids.flatMap le32
  | .encCancel => [0x05]
  | .init sinks => [0x06, sinksByte sinks]
  | .deinit => [0x07]
  | .illFormedRecord record => record
  | .dataFrameStd bit4 id data eof => [0xAA, wireControlByte .standard bit4 data.length] ++ le16 id ++ data ++ [eof]
  | .dataFrameExt bit4 id data eof => [0xAA, wireControlByte .extended bit4 data.length] ++ le32 id ++ data ++ [eof]
  | .statusReport rsv0 rxErr txErr rsv1 sum => [0xAA, 0x55, 0x04, rsv0, rxErr, txErr] ++ rsv1 ++ [sum]
  | .configMsg baud kind filterId maskId mode const rsv sum =>
    [0xAA, 0x55, 0x12, baud, kind] ++ le32 filterId ++ le32 maskId ++ [mode, const] ++ rsv ++ [sum]
  | .filterEnable ids sum => [0xAA, 0x55, 0x10, BitVec.ofNat 8 ids.length] ++ ids.flatMap le32 ++ [sum]
  | .filterCancel => [0xAA, 0x55, 0x10, 0x00, 0x10]
  | .ctrlDlcInvalid ctrl => [0xAA, ctrl]
  | .frameInfoUnrecognized b => [0xAA, b]
  | .statusPathOtherDisc disc => [0xAA, 0x55, disc]

/-! ### Words numbered as the opcode table numbers them -/

/-- Byte `k` of a number, byte 0 the least significant. -/
def byteAt (w k : Nat) : Byte := BitVec.ofNat 8 (w / 256 ^ k)

/-- How long a host record is, from its first two bytes (R89); a record of an unknown operation is its first byte. -/
def recordLength (op arg : Byte) : Nat :=
  if op = 0x01 ∨ op = 0x06 then 2
  else if op = 0x02 then 15
  else if op = 0x03 then 12
  else if op = 0x04 then 2 + 4 * arg.toNat
  else 1

/-- The longest instruction, in bytes: FILTER_ENABLE with 255 ids (R86). -/
def longestInstr : Nat := 1025

/-- The bytes that the numbered bits `w` stand for, and their port. A wire row's number has `m[0]` as its most
significant byte ("written as one hexadecimal number with `m[0]` as the most significant byte"), a host row's number
has byte 0 of the record as its least significant one; bytes above `nbits` are zero (log entry 18). -/
def tableWordBytes (nbits w : Nat) : Port × List Byte :=
  let n := nbits / 8
  let bytes := (List.range n).map (byteAt (w % 2 ^ nbits))
  if 2 ≤ n ∧ bytes.getLastD 0 = Config.startByte then
    let padded := bytes.reverse ++ List.replicate longestInstr 0
    match decodeWire padded with
    | some (_, more) => (.wire, padded.take (padded.length - more.length))
    | none => (.wire, [])
  else
    let len := max n (recordLength (byteAt (w % 2 ^ nbits) 0) (byteAt (w % 2 ^ nbits) 1))
    (.host, bytes ++ List.replicate (len - n) 0)

/-- What the decoder reads from an instruction whose bits are `w`, numbered as spec/opcode_table.json numbers them. -/
def decodeTableWord (nbits w : Nat) : Option Instr :=
  let (port, bytes) := tableWordBytes nbits w
  (decode port bytes).map Prod.fst

end Sys2Proof
end

