-- ==== Sys2Proof/Machine/State.lean ====
section
/-! DEFINITION. The block's state as plain data: the Session of 10_state.md R20, what the rules read or observe beside
it, and the model's own input fields; the faults and refusals of 60_exceptions.md R214; the state at power-on. -/

namespace Sys2Proof.Machine

/-- `life` (R21). -/
inductive Life where
  | absent
  | live
  | released
deriving DecidableEq, Repr

/-- `detectState` (R22). -/
inductive DetectState where
  | waitStart
  | frameInfo
  | idStd
  | idExt
  | data
  | eof
  | controllerStatus
deriving DecidableEq, Repr

/-- Byte memory in one canonical form: cells with strictly rising addresses (`Memory.wf`). -/
abbrev Memory := List Host.Cell

/-- `rxBuffer` (R23): the bytes FEED has written, and which INIT made the buffer. An index with no cell reads as the
free value `Config.unwrittenByte epoch index` (decision D8: "any value or as unwritten"; log entry 7). -/
structure RxBuffer where
  cells : Memory
  epoch : Nat
deriving DecidableEq, Repr

/-- `pendingId` (R27): four bytes. -/
structure IdBytes where
  id0 : Byte
  id1 : Byte
  id2 : Byte
  id3 : Byte
deriving DecidableEq, Repr

/-- The Session record (R20 to R29). -/
structure Session where
  life              : Life
  detectState       : DetectState
  rxBuffer          : RxBuffer
  cursor            : Nat
  pendingType       : IdKind
  pendingDlc        : BitVec 4
  pendingId         : IdBytes
  pendingRxErr      : Byte
  pendingTxErr      : Byte
  frameSinkPresent  : Bool
  statusSinkPresent : Bool
  byteSinkPresent   : Bool
deriving DecidableEq, Repr

/-- A Frame record as the decoder delivers it (R93). -/
structure Frame where
  kind : IdKind
  id   : Word32
  dlc  : Nat
  data : List Byte
deriving DecidableEq, Repr

/-- What an encoder operation returns (R210). -/
inductive EncResult where
  | ok
  | invalidArgument
  | sinkError (e : SinkError)
deriving DecidableEq, Repr

/-- What an operation returns to its caller (R32, R210); FEED and DEINIT return nothing. -/
inductive Returned where
  | encoder (r : EncResult)
  | handle
  | null
deriving DecidableEq, Repr

/-- One entry of the output trace (20_memory.md R57). -/
inductive TraceEntry where
  | frameEvent (f : Frame)
  | statusEvent (txErr rxErr : Byte)
  | sendBytes (bytes : List Byte) (answer : SinkAnswer)
  | result (r : EncResult)
deriving DecidableEq, Repr

/-- One presentation at a port of the block, still to come: a host record or a run of serial bytes, and whether the
caller lets it overlap another operation on this Session (R59; log entries 2 and 11). -/
structure Pending where
  port     : Port
  bytes    : List Byte
  overlaps : Bool
deriving DecidableEq, Repr

/-- What a sink does in one call of it: it is valid and presents these host records to its own Session before it returns
(none, where it keeps its obligation), or the caller has let it go before DEINIT (R150, R218, R244; log entries 10 and 16). -/
inductive SinkConduct where
  | valid (calls : List (List Byte))
  | gone
deriving DecidableEq, Repr

/-- The machine's state. -/
structure State where
  /-- The Session record (R20). -/
  session            : Session
  /-- "a sink call of this Session is in progress" (R110, R140). -/
  sinkCallInProgress : Bool
  /-- The operation being presented overlaps another one (R59, R216 step 1). -/
  overlapping        : Bool
  /-- The output trace, oldest entry first (R57). -/
  trace              : List TraceEntry
  /-- What the last operation returned (R32). -/
  returned           : Option Returned
  /-- MODEL'S OWN: what the caller will present, next first (log entry 2). -/
  input              : List Pending
  /-- MODEL'S OWN: the answers to the next INITs (decision D16, log entry 8). -/
  initAnswers        : List Bool
  /-- MODEL'S OWN: the byte sink's next answers (decision D15, log entry 9). -/
  byteSinkAnswers    : List SinkAnswer
  /-- MODEL'S OWN: what the sink does in each coming sink call, next first; a call with no entry meets a valid sink that
  calls nothing back (R244, decision D18; log entries 10 and 16). -/
  sinkConduct        : List SinkConduct
  /-- MODEL'S OWN: how many draws were made, the argument of the free values (log entry 8). -/
  draws              : Nat
deriving DecidableEq, Repr

/-- The fault reasons of R214, and the one R244 asks for beside them. A fault is final for the run; each is SAFE (true claims about misuse become
unprovable, false ones do not become provable). -/
inductive Fault where
  /-- Any operation but INIT with `life = Released`. Safe. -/
  | useAfterDeinit
  /-- FEED with `life = Absent`. Safe. -/
  | feedNoSession
  /-- DEINIT with `life = Absent`. Safe. -/
  | deinitNoSession
  /-- INIT with `life = Live`. Safe. -/
  | initWhileLive
  /-- Any operation of the Session while one of its sink calls is in progress. Safe. -/
  | reentrantCall
  /-- A receive-buffer access at index 20 or above; unreachable (R53). Safe. -/
  | bufferBounds
  /-- Raised by a sink call (an event FEED delivers, the bytes an encoder hands over) that meets an attached sink which is
  no longer valid (R244). R214 gives no name to it; the name is the model's (log entry 16). Safe. -/
  | invalidSink
deriving DecidableEq, Repr

/-- The refusals. -/
inductive Refusal where
  /-- Raised by `exec` for a constructor that has no meaning yet; none is left. Safe. -/
  | notModelled (mnemonic : String)
  /-- `CONCURRENT_CALL` (R59, R214): the operation overlaps another one on this Session. Safe. -/
  | concurrentCall
  /-- `ILL_FORMED_RECORD` (R90, R214): the host record spells no operation. Safe. -/
  | illFormedRecord
deriving DecidableEq, Repr

/-- Four zero identifier bytes, what ResetMessage leaves (R141). -/
def IdBytes.zero : IdBytes := ⟨0, 0, 0, 0⟩

/-- The Session slot at power-on: `life = Absent` (R21, R240). Every other field is "meaningless" there; DESIGN CHOICE
(log entry 6): the values INIT leaves (R241) with no sink present and nothing written to the buffer. -/
def Session.powerOn : Session where
  life := .absent
  detectState := .waitStart
  rxBuffer := ⟨[], 0⟩
  cursor := 0
  pendingType := .standard
  pendingDlc := 0
  pendingId := .zero
  pendingRxErr := 0
  pendingTxErr := 0
  frameSinkPresent := false
  statusSinkPresent := false
  byteSinkPresent := false

/-- The machine at power-on, before any INIT (R240), with nothing presented yet. -/
def State.reset : State where
  session := .powerOn
  sinkCallInProgress := false
  overlapping := false
  trace := []
  returned := none
  input := []
  initAnswers := []
  byteSinkAnswers := []
  sinkConduct := []
  draws := 0

/-! ### Updates -/

/-- Replace the Session record. -/
def State.withSession (s : State) (ses : Session) : State := { s with session := ses }

/-- Append one entry to the output trace (R57). -/
def State.traced (s : State) (e : TraceEntry) : State := { s with trace := s.trace ++ [e] }

/-- Set what the operation returns. -/
def State.returning (s : State) (r : Option Returned) : State := { s with returned := r }

/-- An encoder operation returns `r`, and the trace gets its result entry (R57, R210). -/
def State.encoderReturns (s : State) (r : EncResult) : State :=
  (s.traced (.result r)).returning (some (.encoder r))

end Sys2Proof.Machine
end

