-- ==== Sys2Proof/Machine/Ops.lean ====
section
/-! DEFINITION. The shared operations: the receive buffer's reads and writes, sequencing, the entry checks of R216,
sink calls and draws, event delivery, ResetMessage, and the fresh Session of INIT. The block takes no exception and
returns from none (60_exceptions.md R217, R218): the entry checks and ResetMessage are what stands in that place. -/

namespace Sys2Proof.Machine

/-- The outcome of an operation. -/
abbrev Out := Host.Outcome State Fault Refusal

/-- One operation after another; a fault or a refusal ends the run. -/
def andThen (o : Out) (k : State → Out) : Out :=
  match o with
  | .next s => k s
  | .fault f => .fault f
  | .refused r => .refused r

/-! ### Byte memory -/

/-- The cell at an address, if one stands there. -/
def Memory.find? : Memory → Nat → Option Byte
  | [], _ => none
  | (k, v) :: rest, a => if a = k then some v else Memory.find? rest a

/-- Write one byte, keeping the addresses strictly rising. -/
def Memory.write : Memory → Nat → Byte → Memory
  | [], a, b => [(a, b)]
  | (k, v) :: rest, a, b =>
    if a < k then (a, b) :: (k, v) :: rest
    else if a = k then (a, b) :: rest
    else (k, v) :: Memory.write rest a b

/-- The canonical form: strictly rising addresses, all of them inside the buffer (R50). -/
abbrev Memory.wf (m : Memory) : Prop :=
  (m.map Prod.fst).Pairwise (· < ·) ∧ ∀ c ∈ m, c.1 < Config.rxBufCap

/-! ### The receive buffer -/

/-- `rxBuffer[i]`: the byte written there, or the free value of an unwritten byte (R23). -/
def RxBuffer.read (r : RxBuffer) (i : Nat) : Byte := (r.cells.find? i).getD (Config.unwrittenByte r.epoch i)

/-- `rxBuffer[lo .. lo + n)`. -/
def RxBuffer.slice (r : RxBuffer) (lo n : Nat) : List Byte := (List.range' lo n).map r.read

/-- `rxBuffer[i] <- b` (R53): a write at an index of 20 or above is `BUFFER_BOUNDS`. -/
def Session.store (ses : Session) (i : Nat) (b : Byte) : Except Fault Session :=
  if i < Config.rxBufCap then
    .ok { ses with rxBuffer := { ses.rxBuffer with cells := ses.rxBuffer.cells.write i b } }
  else .error .bufferBounds

/-- The bytes `rxBuffer[lo .. lo + n)`; a range that leaves the buffer is `BUFFER_BOUNDS` (log entry 13). -/
def Session.load (ses : Session) (lo n : Nat) : Except Fault (List Byte) :=
  if lo + n ≤ Config.rxBufCap then .ok (ses.rxBuffer.slice lo n) else .error .bufferBounds

/-! ### ResetMessage and the fresh Session -/

/-- ResetMessage (R141). The buffer is not cleared. -/
def Session.resetMessage (ses : Session) : Session :=
  { ses with
    cursor := 0
    pendingType := .standard
    pendingDlc := 0
    pendingId := .zero
    pendingRxErr := 0
    pendingTxErr := 0
    detectState := .waitStart }

/-- The Session a successful INIT makes (R191, R241); its buffer is unspecified, under an epoch of its own. -/
def Session.fresh (sinks : Sinks) (epoch : Nat) : Session where
  life := .live
  detectState := .waitStart
  rxBuffer := ⟨[], epoch⟩
  cursor := 0
  pendingType := .standard
  pendingDlc := 0
  pendingId := .zero
  pendingRxErr := 0
  pendingTxErr := 0
  frameSinkPresent := sinks.frame
  statusSinkPresent := sinks.status
  byteSinkPresent := sinks.byte

/-! ### The entry checks -/

/-- The classes of operations the entry checks tell apart (R216). -/
inductive OpClass where
  | feed
  | encoder
  | init
  | deinit
deriving DecidableEq, Repr

/-- Steps 2 and 3 of R216 passed on to the operation, `body`, which starts with nothing returned yet. -/
def afterLifecycle (s : State) (body : State → Out) : Out :=
  if s.sinkCallInProgress then .fault .reentrantCall else body (s.returning none)

/-- Every operation's checks before it has any effect, in the order of R216: CONCURRENT_CALL, the lifecycle,
REENTRANT_CALL; operand validity and the sink are the operation's own. -/
def guarded (c : OpClass) (s : State) (body : State → Out) : Out :=
  if s.overlapping then .refused .concurrentCall
  else match s.session.life, c with
    | .released, .init => afterLifecycle s body
    | .released, _ => .fault .useAfterDeinit
    | .absent, .feed => .fault .feedNoSession
    | .absent, .deinit => .fault .deinitNoSession
    | .absent, .encoder => .next (s.encoderReturns .invalidArgument)
    | .absent, .init => afterLifecycle s body
    | .live, .init => .fault .initWhileLive
    | .live, _ => afterLifecycle s body

/-! ### Draws -/

/-- INIT's draw (R191, D16): the outside's next answer, or a free value where none stands ready. -/
def drawInit (s : State) : Bool × State :=
  (s.initAnswers.headD (Config.initSucceeds s.draws),
   { s with initAnswers := s.initAnswers.tail, draws := s.draws + 1 })

/-- The byte sink's answer (R110, D15): the outside's next answer, or a free value where none stands ready. -/
def drawByteSink (s : State) : SinkAnswer × State :=
  (s.byteSinkAnswers.headD (Config.byteSinkAnswer s.draws),
   { s with byteSinkAnswers := s.byteSinkAnswers.tail, draws := s.draws + 1 })

/-! ### Sink calls -/

/-- The class of an operation that a host record spells. -/
def hostOpClass : Instr → OpClass
  | .encFrame .. | .encConfig .. | .encFilter _ | .encCancel => .encoder
  | .init _ => .init
  | .deinit => .deinit
  | .feed _ | .illFormedRecord _ | .dataFrameStd .. | .dataFrameExt .. | .statusReport .. | .configMsg ..
  | .filterEnable .. | .filterCancel | .ctrlDlcInvalid _ | .frameInfoUnrecognized _ | .statusPathOtherDisc _ => .feed

/-- An operation a sink calls on its own Session while it runs (R150, R218). With the sink call in progress no check
lets the operation itself start, so its body is never reached. -/
def callBack (record : List Byte) (s : State) : Out :=
  match hostOperation record with
  | .error _ => .refused .illFormedRecord
  | .ok i => guarded (hostOpClass i) s .next

/-- The records one sink call makes, in order. -/
def callBacks : List (List Byte) → State → Out
  | [], s => .next s
  | record :: rest, s => andThen (callBack record s) (callBacks rest)

/-- One sink invocation: a valid sink runs to completion inside the operation (R190), with whatever it calls back; one
that is no longer valid ends the run (R244). -/
def sinkCall (s : State) : Out :=
  match s.sinkConduct.headD (.valid []) with
  | .gone => .fault .invalidSink
  | .valid calls =>
    andThen
      (callBacks calls { s with sinkCallInProgress := true, sinkConduct := s.sinkConduct.tail })
      fun s => .next { s with sinkCallInProgress := false }

/-- An event FEED delivers (R150). -/
inductive Event where
  | frame (f : Frame)
  | status (txErr rxErr : Byte)
deriving DecidableEq, Repr

/-- The trace entry of an event (R57). -/
def Event.entry : Event → TraceEntry
  | .frame f => .frameEvent f
  | .status txErr rxErr => .statusEvent txErr rxErr

/-- Whether the event's sink is attached (R29). -/
def Event.sinkPresent (ses : Session) : Event → Bool
  | .frame _ => ses.frameSinkPresent
  | .status .. => ses.statusSinkPresent

/-- `Emit` (R150): the sink call and the trace entry, or neither where the sink is absent. -/
def emit (e : Event) (s : State) : Out :=
  if e.sinkPresent s.session then andThen (sinkCall s) fun s => .next (s.traced e.entry) else .next s

/-- The result an encoder passes on from the sink's answer, unchanged (R110, R212). -/
def SinkAnswer.toResult : SinkAnswer → EncResult
  | .ok => .ok
  | .err e => .sinkError e

/-- `SendBytes` (R110): no byte sink gives `Ok` and no entry; else one sink call, its trace entry and its result. -/
def sendBytes (bytes : List Byte) (s : State) : Out :=
  if s.session.byteSinkPresent then
    andThen (sinkCall s) fun s =>
      let (answer, s) := drawByteSink s
      .next ((s.traced (.sendBytes bytes answer)).encoderReturns (SinkAnswer.toResult answer))
  else .next (s.encoderReturns .ok)

/-- The template of every encoder operation (R110): preamble, operand check, SendBytes. -/
def encoderOp (valid : Bool) (bytes : List Byte) (s : State) : Out :=
  guarded .encoder s fun s => if valid then sendBytes bytes s else .next (s.encoderReturns .invalidArgument)

end Sys2Proof.Machine
end

