-- ==== Sys2Proof/Machine/Operands.lean ====
section
/-! DEFINITION. The operand forms: the byte sequences the encoder builds from its operands (40_encoder.md R111 to R114)
and the identifier bytes the receive machine assembles (R27, R144, R145, R149). -/

namespace Sys2Proof.Machine

/-! ### The encoder's byte sequences -/

/-- `c = 0xC0 | (ext << 5) | dlc[3:0]` (R111). -/
def controlByte (kind : IdKind) (dlc : Byte) : Byte :=
  0xC0 ||| (match kind with | .standard => 0x00 | .extended => 0x20) ||| (dlc &&& 0x0F)

/-- The identifier bytes: `LE_2(id)` keeps only id[15:0] for a standard frame, `LE_4(id)` for an extended one (R82). -/
def idField (kind : IdKind) (id : Word32) : List Byte :=
  match kind with
  | .standard => le16 (id.setWidth 16)
  | .extended => le32 id

/-- The data frame ENC_FRAME sends (R111). -/
def frameMessage (kind : IdKind) (id : Word32) (dlc : Byte) (data : List Byte) : List Byte :=
  [Config.startByte, controlByte kind dlc] ++ idField kind id ++ data.take dlc.toNat ++ [Config.eofByte]

/-- Unsigned 8-bit wrap-around sum (R80). -/
def byteSum (bytes : List Byte) : Byte := bytes.foldl (· + ·) 0

/-- `Checksum(m, lo, hi)` (R80). -/
def checksum (m : List Byte) (lo hi : Nat) : Byte := byteSum ((m.drop lo).take (hi - lo))

/-- The configuration message ENC_CONFIG sends (R76, R112). -/
def configMessage (baud kind : Byte) (filterId maskId : Word32) (mode : Byte) : List Byte :=
  let body := [Config.startByte, Config.secondCmdByte, Config.configDisc, baud, kind] ++ le32 filterId ++ le32 maskId
    ++ [mode, 0x01, 0x00, 0x00, 0x00, 0x00]
  body ++ [checksum body 2 19]

/-- The filter-list enable message ENC_FILTER sends (R77, R113). -/
def filterMessage (ids : List Word32) : List Byte :=
  let body := [Config.startByte, Config.secondCmdByte, Config.filterDisc, BitVec.ofNat 8 ids.length] ++ ids.flatMap le32
  body ++ [checksum body 2 (4 + 4 * ids.length)]

/-- The filter-list cancel message ENC_CANCEL sends: five literal bytes (R78, R114). -/
def cancelMessage : List Byte := [0xAA, 0x55, 0x10, 0x00, 0x10]

/-! ### The receive machine's operands -/

/-- `pendingId.byte[cursor - 2] <- b` (R144, R145), for the cursors 2..5 those rules reach. DESIGN CHOICE (log entry 13):
at any other cursor no identifier byte is written. -/
def IdBytes.setAtCursor (p : IdBytes) (cursor : Nat) (b : Byte) : IdBytes :=
  match cursor with
  | 2 => { p with id0 := b }
  | 3 => { p with id1 := b }
  | 4 => { p with id2 := b }
  | 5 => { p with id3 := b }
  | _ => p

/-- `id0 | id1 << 8 | id2 << 16 | id3 << 24` (R27, R149). -/
def IdBytes.value (p : IdBytes) : Word32 := word32 p.id0 p.id1 p.id2 p.id3

/-- Where the data bytes start: 4 for standard, 6 for extended (R51, R149). -/
def dataOffset : IdKind → Nat
  | .standard => 4
  | .extended => 6

/-- `end`: `4 + pendingDlc` or `6 + pendingDlc` (R36). -/
def Session.dataEnd (ses : Session) : Nat := dataOffset ses.pendingType + ses.pendingDlc.toNat

end Sys2Proof.Machine
end

