-- ==== Sys2Proof/Machine/Flags.lean ====
section
/-! DEFINITION. The block has no flags and no condition codes (10_state.md R32). Its conditions are the validity tests
of the receive path and of the encoder's operands; they stand here. -/

namespace Sys2Proof.Machine

/-- `IdInRange` (R147, R84): at most 0x7FF standard, at most 0x1FFFFFFF extended. -/
def idInRange (kind : IdKind) (id : Word32) : Bool :=
  match kind with
  | .standard => decide (id.toNat ≤ Config.stdIdMax.toNat)
  | .extended => decide (id.toNat ≤ Config.extIdMax.toNat)

/-- The status report's checksum test: `Checksum(rxBuffer, 2, 19)` against the byte received (R148). -/
def statusChecksumOk (r : RxBuffer) (b : Byte) : Bool := byteSum (r.slice 2 17) == b

/-- ENC_FRAME's operand check (R111, R211). -/
def encFrameValid (dlc : Byte) : Bool := decide (dlc.toNat ≤ Config.maxDlc)

/-- ENC_FILTER's operand check (R113, R211). -/
def encFilterValid (ids : List Word32) : Bool := decide (1 ≤ ids.length ∧ ids.length ≤ Config.maxFilterIds)

/-- The content conditions of a wire row (R73 to R79, R84): terminator, identifier range, constants, reserved zeros,
count and checksum. They are no part of well-formedness: the receive machine decides on them, or never looks
(log entry 4). Every other row has none. -/
def contentValid : Instr → Bool
  | .dataFrameStd _ id _ eof => eof == Config.eofByte && idInRange .standard (id.setWidth 32)
  | .dataFrameExt _ id _ eof => eof == Config.eofByte && idInRange .extended id
  | .statusReport rsv0 rxErr txErr rsv1 sum => byteSum ([Config.statusDisc, rsv0, rxErr, txErr] ++ rsv1) == sum
  | .configMsg baud kind filterId maskId mode const rsv sum =>
    const == 0x01 && rsv == [0, 0, 0, 0] &&
      byteSum ([Config.configDisc, baud, kind] ++ le32 filterId ++ le32 maskId ++ [mode, const] ++ rsv) == sum
  | .filterEnable ids sum =>
    encFilterValid ids && byteSum ([Config.filterDisc, BitVec.ofNat 8 ids.length] ++ ids.flatMap le32) == sum
  | .feed _ | .encFrame .. | .encConfig .. | .encFilter _ | .encCancel | .init _ | .deinit | .illFormedRecord _
  | .filterCancel | .ctrlDlcInvalid _ | .frameInfoUnrecognized _ | .statusPathOtherDisc _ => true

end Sys2Proof.Machine
end

