-- ==== Sys2Proof/Machine/Encoder.lean ====
section
/-! DEFINITION. The encoder operations (40_encoder.md R111 to R114), each over the template of R110. -/

namespace Sys2Proof.Machine

/-- ENC_FRAME (R111). -/
def execEncFrame (kind : IdKind) (id : Word32) (dlc : Byte) (data : List Byte) (s : State) : Out :=
  encoderOp (encFrameValid dlc) (frameMessage kind id dlc data) s

/-- ENC_CONFIG (R112): "No field-level validation". -/
def execEncConfig (baud kind : Byte) (filterId maskId : Word32) (mode : Byte) (s : State) : Out :=
  encoderOp true (configMessage baud kind filterId maskId mode) s

/-- ENC_FILTER (R113). -/
def execEncFilter (ids : List Word32) (s : State) : Out :=
  encoderOp (encFilterValid ids) (filterMessage ids) s

/-- ENC_CANCEL (R114). -/
def execEncCancel (s : State) : Out := encoderOp true cancelMessage s

end Sys2Proof.Machine
end

