-- ==== Sys2Proof/Machine/Lifecycle.lean ====
section
/-! DEFINITION. INIT, DEINIT (42_session.md R191, R192) and the refusal of ill-formed host records (30_encoding.md R90). -/

namespace Sys2Proof.Machine

/-- What INIT leaves and returns (R191): a fresh Session and HANDLE, or `life = Absent` and NULL. A failed INIT writes
no other field (log entry 14). -/
def initResult (sinks : Sinks) (ok : Bool) (s : State) : State :=
  (s.withSession (if ok then .fresh sinks s.draws else { s.session with life := .absent })).returning
    (some (if ok then .handle else .null))

/-- INIT (R191): the draw decides. -/
def execInit (sinks : Sinks) (s : State) : Out :=
  guarded .init s fun s => .next (initResult sinks (drawInit s).1 (drawInit s).2)

/-- DEINIT (R192): only `life` is written; the other fields are meaningless from here (log entry 14). -/
def execDeinit (s : State) : Out :=
  guarded .deinit s fun s => .next (s.withSession { s.session with life := .released })

/-- ill-formed_host_record (R90): "refused by the record decoder, before any operation starts"; the refusal
ILL_FORMED_RECORD of R214, whatever the record holds (log entry 19). -/
def execIllFormedRecord (_record : List Byte) (_s : State) : Out := .refused .illFormedRecord

end Sys2Proof.Machine
end

