-- ==== Sys2Proof/Machine/Receive.lean ====
section
/-! DEFINITION. The receive state machine and FEED (41_receive.md R140 to R150). A byte's effect on the Session is a
function of the Session and the byte (`receive`): the Session after it and the event it completes, if any. FEED puts the
entry checks before it and the event's delivery beside it. -/

namespace Sys2Proof.Machine

/-- What one received byte does: the Session after it and the event to deliver; or a buffer access out of bounds. -/
abbrev Reception := Except Fault (Session × Option Event)

/-- R142. -/
def receiveWaitStart (b : Byte) (ses : Session) : Reception :=
  if b = Config.startByte then
    (ses.store 0 b).map fun ses => ({ ses with cursor := 1, detectState := .frameInfo }, none)
  else .ok (ses, none)

/-- R143. -/
def receiveFrameInfo (b : Byte) (ses : Session) : Reception :=
  (ses.store 1 b).map fun ses =>
    if b = Config.secondCmdByte then ({ ses with cursor := 2, detectState := .controllerStatus }, none)
    else if isControlByte b then
      if Config.maxDlc < (dlcField b).toNat then (ses.resetMessage, none)
      else
        ({ ses with
            cursor := 2
            pendingDlc := dlcField b
            pendingType := kindField b
            detectState := match kindField b with | .extended => .idExt | .standard => .idStd }, none)
    else ({ ses with cursor := 1 }, none)

/-- R144 and R145 share one shape: record an identifier byte, and go on at `full` to `Data`, or to `Eof` where DLC is 0. -/
def receiveId (full : Nat) (b : Byte) (ses : Session) : Reception :=
  (ses.store ses.cursor b).map fun ses =>
    ({ ses with
        pendingId := ses.pendingId.setAtCursor ses.cursor b
        cursor := ses.cursor + 1
        detectState :=
          if ses.cursor + 1 = full then (if ses.pendingDlc = 0 then .eof else .data) else ses.detectState }, none)

/-- R144. -/
def receiveIdStd (b : Byte) (ses : Session) : Reception := receiveId 4 b ses

/-- R145. -/
def receiveIdExt (b : Byte) (ses : Session) : Reception := receiveId 6 b ses

/-- R146. -/
def receiveData (b : Byte) (ses : Session) : Reception :=
  (ses.store ses.cursor b).map fun ses =>
    ({ ses with
        cursor := ses.cursor + 1
        detectState := if ses.cursor + 1 = ses.dataEnd then .eof else ses.detectState }, none)

/-- AssembleFrame (R149). -/
def Session.assembleFrame (ses : Session) : Except Fault Frame :=
  (ses.load (dataOffset ses.pendingType) ses.pendingDlc.toNat).map fun data =>
    ⟨ses.pendingType, ses.pendingId.value, ses.pendingDlc.toNat, data⟩

/-- R147: the terminator is recorded without advancing cursor; in every case the message ends. -/
def receiveEof (b : Byte) (ses : Session) : Reception :=
  (ses.store ses.cursor b).bind fun ses =>
    if b = Config.eofByte then
      ses.assembleFrame.map fun f =>
        (ses.resetMessage, if idInRange f.kind f.id then some (.frame f) else none)
    else .ok (ses.resetMessage, none)

/-- R148. -/
def receiveControllerStatus (b : Byte) (ses : Session) : Reception :=
  (ses.store ses.cursor b).map fun ses =>
    let ses := { ses with cursor := ses.cursor + 1 }
    if ses.cursor = 3 ∧ b ≠ Config.statusDisc then (ses.resetMessage, none)
    else
      let ses := if ses.cursor = 5 then { ses with pendingRxErr := b } else ses
      let ses := if ses.cursor = 6 then { ses with pendingTxErr := b } else ses
      if ses.cursor = Config.statusLen then
        (ses.resetMessage,
          if statusChecksumOk ses.rxBuffer b then some (.status ses.pendingTxErr ses.pendingRxErr) else none)
      else (ses, none)

/-- FEED's dispatch on `detectState` (R140). -/
def receive (b : Byte) (ses : Session) : Reception :=
  match ses.detectState with
  | .waitStart => receiveWaitStart b ses
  | .frameInfo => receiveFrameInfo b ses
  | .idStd => receiveIdStd b ses
  | .idExt => receiveIdExt b ses
  | .data => receiveData b ses
  | .eof => receiveEof b ses
  | .controllerStatus => receiveControllerStatus b ses

/-- Deliver the event, if any, then leave the Session as the byte leaves it. The sink runs before the Session is replaced
(R150: "the Session is in the middle of its FEED"); what it could call back reads `life` only. -/
def deliver (event : Option Event) (after : Session) (s : State) : Out :=
  match event with
  | none => .next (s.withSession after)
  | some e => andThen (emit e s) fun s => .next (s.withSession after)

/-- FEED past its entry checks (R140). -/
def feedBody (b : Byte) (s : State) : Out :=
  match receive b s.session with
  | .ok (after, event) => deliver event after s
  | .error f => .fault f

/-- FEED (R140): one byte. -/
def feedByte (b : Byte) (s : State) : Out := guarded .feed s (feedBody b)

/-- FEEDS (R92): FEED of each byte, in order. -/
def feedBytes : List Byte → State → Out
  | [], s => .next s
  | b :: rest, s => andThen (feedByte b s) (feedBytes rest)

/-- FEED (R140). -/
def execFeed (b : Byte) (s : State) : Out := feedByte b s

/-! ### The names of the drops -/

/-- The labels of R213. No state holds them and no operation shows them (R32). -/
inductive Drop where
  | ignored
  | discardUnrecognized
  | dropDlcInvalid
  | dropBadTerminator
  | dropIdRange
  | dropBadDiscriminator
  | dropChecksum
deriving DecidableEq, Repr

/-- The drop, if any, that a byte meets in a Session, by the triggers of R213. -/
def dropOf (b : Byte) (ses : Session) : Option Drop :=
  match ses.detectState with
  | .waitStart => if b ≠ Config.startByte then some .ignored else none
  | .frameInfo =>
    if b = Config.secondCmdByte then none
    else if isControlByte b then (if Config.maxDlc < (dlcField b).toNat then some .dropDlcInvalid else none)
    else some .discardUnrecognized
  | .idStd => none
  | .idExt => none
  | .data => none
  | .eof =>
    if b ≠ Config.eofByte then some .dropBadTerminator
    else if idInRange ses.pendingType ses.pendingId.value then none else some .dropIdRange
  | .controllerStatus =>
    if ses.cursor = 2 ∧ b ≠ Config.statusDisc then some .dropBadDiscriminator
    else if ses.cursor = 19 ∧ statusChecksumOk ses.rxBuffer b = false then some .dropChecksum
    else none

end Sys2Proof.Machine
end

