-- ==== Sys2Proof/Machine/Wire.lean ====
section
/-! DEFINITION. The wire rows of the opcode table as instructions: each is the FEEDS of its bytes (30_encoding.md R92;
log entry 3), through the same receive machine as every other byte (41_receive.md R142 to R148). What becomes of the
message is the machine's affair: delivered, dropped or abandoned. -/

namespace Sys2Proof.Machine

/-- DATA_FRAME_STD (R73, R142 to R147). -/
def execDataFrameStd (bit4 : Bool) (id : Word16) (data : List Byte) (eof : Byte) (s : State) : Out :=
  feedBytes (encode (.dataFrameStd bit4 id data eof)) s

/-- DATA_FRAME_EXT (R74, R142 to R147). -/
def execDataFrameExt (bit4 : Bool) (id : Word32) (data : List Byte) (eof : Byte) (s : State) : Out :=
  feedBytes (encode (.dataFrameExt bit4 id data eof)) s

/-- STATUS_REPORT (R79, R148). -/
def execStatusReport (rsv0 rxErr txErr : Byte) (rsv1 : List Byte) (sum : Byte) (s : State) : Out :=
  feedBytes (encode (.statusReport rsv0 rxErr txErr rsv1 sum)) s

/-- CONFIG_MSG (R76): "configuration/filter-list have no decode path" (R85); abandoned at index 2 (R148). -/
def execConfigMsg (baud kind : Byte) (filterId maskId : Word32) (mode const : Byte) (rsv : List Byte) (sum : Byte)
    (s : State) : Out :=
  feedBytes (encode (.configMsg baud kind filterId maskId mode const rsv sum)) s

/-- FILTER_ENABLE (R77, R148): abandoned at index 2. -/
def execFilterEnable (ids : List Word32) (sum : Byte) (s : State) : Out :=
  feedBytes (encode (.filterEnable ids sum)) s

/-- FILTER_CANCEL (R78, R148): abandoned at index 2. -/
def execFilterCancel (s : State) : Out := feedBytes (encode .filterCancel) s

/-- reserved__CTRL_DLC_INVALID (R87, R143): abandoned at the control byte. -/
def execCtrlDlcInvalid (ctrl : Byte) (s : State) : Out := feedBytes (encode (.ctrlDlcInvalid ctrl)) s

/-- reserved__FRAMEINFO_UNRECOGNIZED (R87, R143): byte discarded, still in FrameInfo. -/
def execFrameInfoUnrecognized (b : Byte) (s : State) : Out := feedBytes (encode (.frameInfoUnrecognized b)) s

/-- reserved__STATUS_PATH_OTHER_DISC (R87, R148): abandoned at index 2. -/
def execStatusPathOtherDisc (disc : Byte) (s : State) : Out := feedBytes (encode (.statusPathOtherDisc disc)) s

end Sys2Proof.Machine
end

