-- ==== Sys2Proof/Machine/Dispatch.lean ====
section
/-! DEFINITION. One arm per row of spec/opcode_table.json. -/

namespace Sys2Proof.Machine

def exec (i : Instr) (s : State) : Host.Outcome State Fault Refusal :=
  match i with
  | .feed b => Sys2Proof.Machine.execFeed b s
  | .encFrame kind id dlc data => Sys2Proof.Machine.execEncFrame kind id dlc data s
  | .encConfig baud kind filterId maskId mode => Sys2Proof.Machine.execEncConfig baud kind filterId maskId mode s
  | .encFilter ids => Sys2Proof.Machine.execEncFilter ids s
  | .encCancel => Sys2Proof.Machine.execEncCancel s
  | .init sinks => Sys2Proof.Machine.execInit sinks s
  | .deinit => Sys2Proof.Machine.execDeinit s
  | .illFormedRecord record => Sys2Proof.Machine.execIllFormedRecord record s
  | .dataFrameStd bit4 id data eof => Sys2Proof.Machine.execDataFrameStd bit4 id data eof s
  | .dataFrameExt bit4 id data eof => Sys2Proof.Machine.execDataFrameExt bit4 id data eof s
  | .statusReport rsv0 rxErr txErr rsv1 sum => Sys2Proof.Machine.execStatusReport rsv0 rxErr txErr rsv1 sum s
  | .configMsg baud kind filterId maskId mode const rsv sum => Sys2Proof.Machine.execConfigMsg baud kind filterId maskId mode const rsv sum s
  | .filterEnable ids sum => Sys2Proof.Machine.execFilterEnable ids sum s
  | .filterCancel => Sys2Proof.Machine.execFilterCancel s
  | .ctrlDlcInvalid ctrl => Sys2Proof.Machine.execCtrlDlcInvalid ctrl s
  | .frameInfoUnrecognized b => Sys2Proof.Machine.execFrameInfoUnrecognized b s
  | .statusPathOtherDisc disc => Sys2Proof.Machine.execStatusPathOtherDisc disc s

end Sys2Proof.Machine
end

