-- ==== Sys2Proof/Machine/Fetch.lean ====
section
/-! DEFINITION. Taking the next instruction from what the caller presents (20_memory.md R60: "The stream of host
operations is not stored by the block"; log entry 2). -/

namespace Sys2Proof.Machine

/-- What is left of a presentation goes back to the head of the queue, unless nothing is left. -/
def requeue (p : Pending) (left : List Byte) (rest : List Pending) : List Pending :=
  if left = [] then rest else { p with bytes := left } :: rest

/-- The next instruction, if one is presented, and the state it runs in: its bytes are taken from the queue and its
overlap mark is latched. A host record is one instruction; a run of serial bytes gives its first one. -/
def fetch (s : State) : Option Instr × State :=
  match s.input with
  | [] => (none, s)
  | p :: rest =>
    match decode p.port p.bytes with
    | some (i, left) => (some i, { s with input := requeue p left rest, overlapping := p.overlaps })
    | none => (none, { s with input := rest })

/-- `s` with the numbered bits `w` presented next, serialized (log entries 2 and 18). -/
def presentTableWord (s : State) (nbits w : Nat) : State :=
  let (port, bytes) := tableWordBytes nbits w
  { s with input := ⟨port, bytes, false⟩ :: s.input }

end Sys2Proof.Machine
end

