-- ==== Sys2Proof/Machine/Step.lean ====
section
/-! DEFINITION. One step: the next operation presented, as a whole (00_scope.md R5). -/

namespace Sys2Proof.Machine

/-- One host operation, or one wire instruction. With nothing presented the block does nothing. -/
def step (s : State) : Host.Outcome State Fault Refusal :=
  match fetch s with
  | (some i, s) => exec i s
  | (none, s) => .next s

/-- `s` with that instruction presented next, so that `step` runs exactly it. -/
def State.withFetchWord (s : State) (nbits w : Nat) : State := presentTableWord s nbits w

end Sys2Proof.Machine
end

