-- ==== Sys2Proof/Machine/Asm.lean ====
section
/-! DEFINITION. The assembly forms of 30_encoding.md R91 and the pseudo-instruction FEEDS of R92, as abstract syntax
(the text itself is notation), and how a program is presented to the block. -/

namespace Sys2Proof.Machine

/-- One line of a program (R91, R92). -/
inductive AsmLine where
  | init (sinks : Sinks)
  | feed (b : Byte)
  | feeds (bytes : List Byte)
  | encFrame (kind : IdKind) (id : Word32) (dlc : Byte) (data : List Byte)
  | encConfig (baud kind : Byte) (filterId maskId : Word32) (mode : Byte)
  | encFilter (ids : List Word32)
  | encCancel
  | deinit
deriving DecidableEq, Repr

/-- The operations a line stands for. "ENC_FRAME data bytes beyond the list are taken as 0x00 in the record" (R91);
"`FEEDS <b0> <b1> ... <bn>` expands to the n+1 operations" (R92). DESIGN CHOICE (log entry 22): of an ENC_FRAME list longer than the record's eight
slots the first eight bytes are taken. -/
def AsmLine.instrs : AsmLine → List Instr
  | .init sinks => [.init sinks]
  | .feed b => [.feed b]
  | .feeds bytes => bytes.map .feed
  | .encFrame kind id dlc data => [.encFrame kind id dlc ((data ++ List.replicate 8 0).take 8)]
  | .encConfig baud kind filterId maskId mode => [.encConfig baud kind filterId maskId mode]
  | .encFilter ids => [.encFilter ids]
  | .encCancel => [.encCancel]
  | .deinit => [.deinit]

/-- An instruction as one serialized presentation of its bytes. -/
def presentation (i : Instr) : Pending := ⟨i.port, encode i, false⟩

/-- A program as the caller presents it, one operation after another (R242). DESIGN CHOICE (log entry 22): an ENC_FILTER
line of more than 255 ids, "not encodable in the host record" (95_test_vectors.md FLT-8), is presented with its count
modulo 256 before all its ids, a record that the step refuses as ill-formed. -/
def assemble (program : List AsmLine) : List Pending := (program.flatMap AsmLine.instrs).map presentation

end Sys2Proof.Machine
end

