-- ==== Sys2Proof/Safety.lean ====
section
/-! DEFINITION. What claims are stated in: when an operation may start, sinks that keep their obligation, the invariant
of 10_state.md R36, and a run without a stop (60_exceptions.md R214: "every claim takes \"no fault\" as a premise"). -/

namespace Sys2Proof.Machine

/-- A live Session at an operation boundary, used by one serialized caller (R216 steps 1 to 3 all pass). -/
abbrev State.Ready (s : State) : Prop :=
  s.session.life = .live ∧ s.overlapping = false ∧ s.sinkCallInProgress = false

/-- The next sink call meets a valid sink that calls nothing back: "a caller obligation" (R150, R244). -/
abbrev State.NextSinkQuiet (s : State) : Prop := s.sinkConduct.headD (.valid []) = .valid []

/-- Every coming sink call meets a valid sink that calls nothing back. -/
abbrev State.SinksQuiet (s : State) : Prop := ∀ c ∈ s.sinkConduct, c = .valid []

/-- The pending fields as ResetMessage leaves them (R141). -/
abbrev Session.Cleared (ses : Session) : Prop :=
  ses.pendingType = .standard ∧ ses.pendingDlc = 0 ∧ ses.pendingId = .zero ∧ ses.pendingRxErr = 0 ∧ ses.pendingTxErr = 0

/-- No message in progress: "WaitStart/0". -/
abbrev Session.Idle (ses : Session) : Prop := ses.detectState = .waitStart ∧ ses.cursor = 0 ∧ ses.Cleared

/-- The table of R36, one line per `detectState`. -/
abbrev Session.Table (ses : Session) : Prop :=
  (ses.detectState = .waitStart → ses.cursor = 0 ∧ ses.Cleared) ∧
  (ses.detectState = .frameInfo → ses.cursor = 1 ∧ ses.rxBuffer.read 0 = 0xAA ∧ ses.Cleared) ∧
  (ses.detectState = .idStd →
    (ses.cursor = 2 ∨ ses.cursor = 3) ∧ ses.pendingType = .standard ∧ ses.pendingDlc.toNat ≤ 8) ∧
  (ses.detectState = .idExt →
    2 ≤ ses.cursor ∧ ses.cursor ≤ 5 ∧ ses.pendingType = .extended ∧ ses.pendingDlc.toNat ≤ 8) ∧
  (ses.detectState = .data →
    dataOffset ses.pendingType ≤ ses.cursor ∧ ses.cursor < ses.dataEnd ∧ ses.pendingDlc.toNat ≤ 8) ∧
  (ses.detectState = .eof → ses.cursor = ses.dataEnd ∧ ses.dataEnd ≤ 14 ∧ ses.pendingDlc.toNat ≤ 8) ∧
  (ses.detectState = .controllerStatus →
    2 ≤ ses.cursor ∧ ses.cursor ≤ 19 ∧ ses.pendingType = .standard ∧ ses.pendingDlc = 0 ∧ ses.pendingId = .zero)

/-- Every byte of the message in progress was written in this message's course: `cursor` is the "count of bytes
written" (R24). -/
abbrev Session.Written (ses : Session) : Prop := ∀ i < ses.cursor, (ses.rxBuffer.cells.find? i).isSome = true

/-- The two high identifier bytes of a standard frame in progress are the zeros of the last clear (R27). -/
abbrev Session.StdHighZero (ses : Session) : Prop :=
  ses.pendingType = .standard → ses.pendingId.id2 = 0 ∧ ses.pendingId.id3 = 0

/-- The invariant of an operation boundary: the buffer is in canonical form, no sink call is in progress, and a live
Session satisfies the table. -/
abbrev State.Inv (s : State) : Prop :=
  Memory.wf s.session.rxBuffer.cells ∧ s.sinkCallInProgress = false ∧
  (s.session.life = .live → s.session.Table ∧ s.session.Written ∧ s.session.StdHighZero)

/-- A run of `k` steps that no fault and no refusal ends. -/
def Safe (k : Nat) (s : State) : Prop := ∃ t, Host.Core.run Sys2Proof.core k s = .next t

end Sys2Proof.Machine
end

