-- ==== Sys2Proof/Certificates/Slice0/Obligations.lean ====
section
/-! DEFINITION. The statements for the provers. Each docstring names the rules of spec/ it formalises. The namespace
`Sys2Proof.Spec` writes the spec's own formulas (division and remainder, sums of naturals) so that a statement does not
repeat the model's. -/

open Sys2Proof Sys2Proof.Machine

namespace Sys2Proof.Spec

/-- `LE_n(v)` by division (R8). -/
def leBytes (n v : Nat) : List Byte := (List.range n).map fun k => BitVec.ofNat 8 (v / 256 ^ k)

/-- The sum of bytes modulo 256 (R80). -/
def sumMod256 (bytes : List Byte) : Byte := BitVec.ofNat 8 ((bytes.map BitVec.toNat).sum)

/-- The identifier as a number: `id0 + 256·id1 + 65536·id2 + 2^24·id3` (R27). -/
def idNumber (p : IdBytes) : Nat := p.id0.toNat + 256 * p.id1.toNat + 65536 * p.id2.toNat + 16777216 * p.id3.toNat

/-- Where the data bytes of a frame start (R51). -/
def dataStart : IdKind → Nat
  | .standard => 4
  | .extended => 6

/-- The largest identifier of a kind (R84). -/
def idMax : IdKind → Nat
  | .standard => 0x7FF
  | .extended => 0x1FFFFFFF

/-- The buffer with one byte written (R53). -/
def stored (ses : Session) (i : Nat) (b : Byte) : RxBuffer :=
  { ses.rxBuffer with cells := ses.rxBuffer.cells.write i b }

/-- The Session whose message has ended, with this buffer (R141). -/
def ended (ses : Session) (buf : RxBuffer) : Session :=
  { ses with
    rxBuffer := buf, cursor := 0, pendingType := .standard, pendingDlc := 0, pendingId := ⟨0, 0, 0, 0⟩,
    pendingRxErr := 0, pendingTxErr := 0, detectState := .waitStart }

/-- A change of the next state, if there is one. -/
def mapNext (f : State → State) : Host.Outcome State Fault Refusal → Host.Outcome State Fault Refusal
  | .next s => .next (f s)
  | .fault r => .fault r
  | .refused r => .refused r

/-- The four encoder operations. -/
def isEncoder : Instr → Bool
  | .encFrame .. | .encConfig .. | .encFilter _ | .encCancel => true
  | .feed _ | .init _ | .deinit | .illFormedRecord _
  | .dataFrameStd .. | .dataFrameExt .. | .statusReport .. | .configMsg .. | .filterEnable .. | .filterCancel
  | .ctrlDlcInvalid _ | .frameInfoUnrecognized _ | .statusPathOtherDisc _ => false

/-- FEED and the wire messages: what puts bytes through the receive machine. -/
def receives : Instr → Bool
  | .feed _
  | .dataFrameStd .. | .dataFrameExt .. | .statusReport .. | .configMsg .. | .filterEnable .. | .filterCancel
  | .ctrlDlcInvalid _ | .frameInfoUnrecognized _ | .statusPathOtherDisc _ => true
  | .encFrame .. | .encConfig .. | .encFilter _ | .encCancel | .init _ | .deinit | .illFormedRecord _ => false

/-- The serial bytes such an instruction puts through the receive machine: the wire message, or FEED's one byte. -/
def serialBytes (i : Instr) : List Byte := if i.port = .wire then encode i else (encode i).drop 1

/-- The result an encoder passes on (R110). -/
def resultOf : SinkAnswer → EncResult
  | .ok => .ok
  | .err e => .sinkError e

/-- An event entry of the trace. -/
def isEvent : TraceEntry → Bool
  | .frameEvent _ | .statusEvent .. => true
  | _ => false

/-- A frame the decoder may deliver (R93, R84). -/
def frameValid : TraceEntry → Prop
  | .frameEvent f => f.dlc ≤ 8 ∧ f.data.length = f.dlc ∧ f.id.toNat ≤ idMax f.kind
  | _ => True

/-- An encoder operation as R110 describes it, every outcome of a caller that is serialized: `valid` is its operand
check and `bytes` what it hands to the byte sink. Where the sink's answer and its calls back come from is the model's
choice (log entries 9 and 10): every answer `a` is covered. -/
def EncoderRuns (i : Instr) (valid : Prop) (bytes : List Byte) : Prop :=
  ∀ s : State, s.overlapping = false →
    (s.session.life = .released → exec i s = .fault .useAfterDeinit) ∧
    (s.session.life = .absent → exec i s = .next { s with
      trace := s.trace ++ [.result .invalidArgument], returned := some (.encoder .invalidArgument) }) ∧
    (s.session.life = .live → s.sinkCallInProgress = true → exec i s = .fault .reentrantCall) ∧
    (s.Ready → ¬ valid → exec i s = .next { s with
      trace := s.trace ++ [.result .invalidArgument], returned := some (.encoder .invalidArgument) }) ∧
    (s.Ready → valid → s.session.byteSinkPresent = false → exec i s = .next { s with
      trace := s.trace ++ [.result .ok], returned := some (.encoder .ok) }) ∧
    (s.Ready → valid → s.session.byteSinkPresent = true → s.NextSinkQuiet →
      ∀ a, a = s.byteSinkAnswers.headD (Config.byteSinkAnswer s.draws) → exec i s = .next { s with
        sinkConduct := s.sinkConduct.tail
        byteSinkAnswers := s.byteSinkAnswers.tail
        draws := s.draws + 1
        trace := s.trace ++ [.sendBytes bytes a, .result (resultOf a)]
        returned := some (.encoder (resultOf a)) })

/-- Operations one after another. -/
def runAll : List Instr → State → Host.Outcome State Fault Refusal
  | [], s => .next s
  | i :: rest, s =>
    match exec i s with
    | .next s => runAll rest s
    | .fault r => .fault r
    | .refused r => .refused r

/-- A state with another content of the unwritten buffer bytes. -/
def withEpoch (e : Nat) (s : State) : State :=
  { s with session := { s.session with rxBuffer := { s.session.rxBuffer with epoch := e } } }

/-- The transition table of R153: from a Session and a byte, the next `detectState` (the event column is in
`eventAllowed`). `n` is the cursor after the write. -/
def nextDetectState (ses : Session) (b : Byte) : DetectState :=
  let n := ses.cursor + 1
  match ses.detectState with
  | .waitStart => if b = 0xAA then .frameInfo else .waitStart
  | .frameInfo =>
    if b = 0x55 then .controllerStatus
    else if 0xC0 ≤ b.toNat then
      if 9 ≤ b.toNat % 16 then .waitStart else if b.toNat / 32 % 2 = 1 then .idExt else .idStd
    else .frameInfo
  | .idStd => if n < 4 then .idStd else if ses.pendingDlc = 0 then .eof else .data
  | .idExt => if n < 6 then .idExt else if ses.pendingDlc = 0 then .eof else .data
  | .data => if n < dataStart ses.pendingType + ses.pendingDlc.toNat then .data else .eof
  | .eof => .waitStart
  | .controllerStatus =>
    if n = 3 ∧ b ≠ 0x04 then .waitStart else if n = 20 then .waitStart else .controllerStatus

/-- The lines of R153 that deliver an event. -/
def eventAllowed (ses : Session) (b : Byte) : Prop :=
  (ses.detectState = .eof ∧ b = 0x55 ∧ idNumber ses.pendingId ≤ idMax ses.pendingType) ∨
  (ses.detectState = .controllerStatus ∧ ses.cursor = 19 ∧
    sumMod256 ((List.range 17).map fun i => ses.rxBuffer.read (2 + i)) = b)

/-- Whether the sink of the event that such a byte completes is attached. -/
def eventSink (ses : Session) : Bool :=
  if ses.detectState = .eof then ses.frameSinkPresent else ses.statusSinkPresent

/-- The operands an encoder operation accepts (R211). -/
def operandsValid : Instr → Prop
  | .encFrame _ _ dlc _ => dlc.toNat ≤ 8
  | .encFilter ids => 1 ≤ ids.length ∧ ids.length ≤ 255
  | .encConfig .. | .encCancel => True
  | .feed _ | .init _ | .deinit | .illFormedRecord _
  | .dataFrameStd .. | .dataFrameExt .. | .statusReport .. | .configMsg .. | .filterEnable .. | .filterCancel
  | .ctrlDlcInvalid _ | .frameInfoUnrecognized _ | .statusPathOtherDisc _ => False

/-- The operation calls an attached sink: an encoder with valid operands and a byte sink, or a FEED that completes an
event of R153 in a Session of R36's table. -/
def callsSink (i : Instr) (ses : Session) : Prop :=
  (isEncoder i = true ∧ operandsValid i ∧ ses.byteSinkPresent = true) ∨
  (∃ b, i = .feed b ∧ eventAllowed ses b ∧ eventSink ses = true ∧ ses.Table)

end Sys2Proof.Spec

open Sys2Proof.Spec

/-! ### Power-on, INIT, DEINIT -/

/-- R240, R21: `life = Absent` at power-on, and the operations answer as R216 gives for it. That the trace is
empty and no sink call is in progress there is the model's choice (log entry 6), as are the other fields' values, which are
not stated. -/
def Obligations.PowerOnHasNoSession : Prop :=
  State.reset.session.life = .absent ∧ State.reset.trace = [] ∧ State.reset.sinkCallInProgress = false ∧
  (∀ b, exec (.feed b) State.reset = .fault .feedNoSession) ∧
  exec .deinit State.reset = .fault .deinitNoSession ∧
  (∀ i, isEncoder i = true → exec i State.reset = .next { State.reset with
    trace := [.result .invalidArgument], returned := some (.encoder .invalidArgument) })

/-- R191, R241. INIT of a serialized caller: the fault while live, and otherwise, by the draw, a fresh Session with every
field as listed, or NULL. The buffer is "unspecified": nothing in it is written. That the answer stands in `initAnswers`
is the model's choice (log entry 8); that HANDLE or NULL is no entry of the trace, which stays as it was, is its reading of
R57 (log entry 12), and that a failed INIT writes only `life` too (log entry 14). -/
def Obligations.InitCreatesFreshSession : Prop :=
  ∀ (sinks : Sinks) (s : State), s.overlapping = false →
    (s.session.life = .live → exec (.init sinks) s = .fault .initWhileLive) ∧
    (s.session.life ≠ .live → s.sinkCallInProgress = false →
      ∃ epoch, ∀ created failed : State,
        created = { s with
          session := {
            life := .live, detectState := .waitStart, rxBuffer := ⟨[], epoch⟩, cursor := 0, pendingType := .standard,
            pendingDlc := 0, pendingId := ⟨0, 0, 0, 0⟩, pendingRxErr := 0, pendingTxErr := 0,
            frameSinkPresent := sinks.frame, statusSinkPresent := sinks.status, byteSinkPresent := sinks.byte }
          returned := some .handle, initAnswers := s.initAnswers.tail, draws := s.draws + 1 } →
        failed = { s with
          session := { s.session with life := .absent }
          returned := some .null, initAnswers := s.initAnswers.tail, draws := s.draws + 1 } →
        (∀ rest, s.initAnswers = true :: rest → exec (.init sinks) s = .next created) ∧
        (∀ rest, s.initAnswers = false :: rest → exec (.init sinks) s = .next failed) ∧
        (exec (.init sinks) s = .next created ∨ exec (.init sinks) s = .next failed))

/-- R192. DEINIT of a serialized caller: only `life` changes (log entry 14), nothing is returned. -/
def Obligations.DeinitReleasesSession : Prop :=
  ∀ s : State, s.overlapping = false →
    (s.session.life = .released → exec .deinit s = .fault .useAfterDeinit) ∧
    (s.session.life = .absent → exec .deinit s = .fault .deinitNoSession) ∧
    (s.session.life = .live → s.sinkCallInProgress = true → exec .deinit s = .fault .reentrantCall) ∧
    (s.Ready → exec .deinit s = .next { s with session := { s.session with life := .released }, returned := none })

/-! ### The entry checks -/

/-- R216 steps 1 to 3, for every one of the seven host operations: the first check that applies decides. -/
def Obligations.EntryChecksInOrder : Prop :=
  ∀ (i : Instr) (s : State), i.port = .host → (∀ r, i ≠ .illFormedRecord r) →
    (s.overlapping = true → exec i s = .refused .concurrentCall) ∧
    (s.overlapping = false →
      (s.session.life = .released → (∀ sinks, i ≠ .init sinks) → exec i s = .fault .useAfterDeinit) ∧
      (s.session.life = .absent →
        (∀ b, i = .feed b → exec i s = .fault .feedNoSession) ∧
        (i = .deinit → exec i s = .fault .deinitNoSession) ∧
        (isEncoder i = true → exec i s = .next { s with
          trace := s.trace ++ [.result .invalidArgument], returned := some (.encoder .invalidArgument) })) ∧
      (s.session.life = .live → ∀ sinks, i = .init sinks → exec i s = .fault .initWhileLive) ∧
      (s.sinkCallInProgress = true →
        ((s.session.life = .live ∧ ∀ sinks, i ≠ .init sinks) ∨ (s.session.life ≠ .live ∧ ∃ sinks, i = .init sinks)) →
        exec i s = .fault .reentrantCall))

/-- R216 for serial bytes: a wire message is FEEDs, and its first FEED stops as a FEED does. -/
def Obligations.WireMessagesStopAsFeedDoes : Prop :=
  ∀ (i : Instr) (s : State), i.port = .wire →
    (s.overlapping = true → exec i s = .refused .concurrentCall) ∧
    (s.overlapping = false →
      (s.session.life = .released → exec i s = .fault .useAfterDeinit) ∧
      (s.session.life = .absent → exec i s = .fault .feedNoSession) ∧
      (s.session.life = .live → s.sinkCallInProgress = true → exec i s = .fault .reentrantCall))

/-- R150, R214, R218: where any operation calls a valid sink that calls back, the run stops: ILL_FORMED_RECORD for a
record that spells no operation, INIT_WHILE_LIVE for an INIT, REENTRANT_CALL for every other operation. That what sinks do
stands in `sinkConduct` is the model's choice (log entry 10), that the ill-formed record is refused first its reading (log
entry 19). -/
def Obligations.CallingBackFromASinkStops : Prop :=
  ∀ (s : State) (record : List Byte) (calls : List (List Byte)) (rest : List SinkConduct),
    s.Ready → s.sinkConduct = .valid (record :: calls) :: rest →
    ∀ i : Instr, callsSink i s.session →
      (recordWellFormed record = false → exec i s = .refused .illFormedRecord) ∧
      (recordWellFormed record = true →
        exec i s = .fault (if record.headD 0 = 0x06 then .initWhileLive else .reentrantCall))

/-! ### The encoder -/

/-- R111: ENC_FRAME of a DLC up to 8 hands `AA`, the control byte, the identifier's low 2 or 4 bytes, the used data bytes
and `55` to the byte sink. -/
def Obligations.EncFrameSendsDataFrame : Prop :=
  ∀ (kind : IdKind) (id : Word32) (dlc : Byte) (data : List Byte),
    EncoderRuns (.encFrame kind id dlc data) (dlc.toNat ≤ 8)
      ([0xAA, BitVec.ofNat 8 ((match kind with | .standard => 0xC0 | .extended => 0xE0) + dlc.toNat)] ++
        leBytes (match kind with | .standard => 2 | .extended => 4) id.toNat ++ data.take dlc.toNat ++ [0x55])

/-- R112: ENC_CONFIG, every operand copied, the checksum over indices 2..18. -/
def Obligations.EncConfigSendsConfiguration : Prop :=
  ∀ (baud kind : Byte) (filterId maskId : Word32) (mode : Byte) (body : List Byte),
    body = [0x12, baud, kind] ++ leBytes 4 filterId.toNat ++ leBytes 4 maskId.toNat ++
      [mode, 0x01, 0x00, 0x00, 0x00, 0x00] →
    EncoderRuns (.encConfig baud kind filterId maskId mode) True ([0xAA, 0x55] ++ body ++ [sumMod256 body])

/-- R113: ENC_FILTER of 1 to 255 identifiers, in list order, the checksum over `[2, 4+4n)`. -/
def Obligations.EncFilterSendsFilterList : Prop :=
  ∀ (ids : List Word32) (body : List Byte),
    body = [0x10, BitVec.ofNat 8 ids.length] ++ ids.flatMap (fun id => leBytes 4 id.toNat) →
    EncoderRuns (.encFilter ids) (1 ≤ ids.length ∧ ids.length ≤ 255) ([0xAA, 0x55] ++ body ++ [sumMod256 body])

/-- R114: ENC_CANCEL, the fixed five bytes. -/
def Obligations.EncCancelSendsFiveBytes : Prop := EncoderRuns .encCancel True [0xAA, 0x55, 0x10, 0x00, 0x10]

/-- R115: an encoder operation does the same whatever the Session's other fields hold, writes no Session field, and adds
to the trace its result and at most the one SendBytes entry before it. -/
def Obligations.EncodersArePure : Prop :=
  ∀ (i : Instr) (s : State), isEncoder i = true →
    (∀ ses : Session, ses.life = s.session.life → ses.byteSinkPresent = s.session.byteSinkPresent →
      exec i { s with session := ses } = mapNext (fun t => { t with session := ses }) (exec i s)) ∧
    (∀ t, exec i s = .next t →
      t.session = s.session ∧ t.input = s.input ∧ t.initAnswers = s.initAnswers ∧ t.overlapping = s.overlapping ∧
      ∃ r, t.returned = some (.encoder r) ∧
        (t.trace = s.trace ++ [.result r] ∨
         ∃ bytes a, r = resultOf a ∧ s.session.byteSinkPresent = true ∧
           t.trace = s.trace ++ [.sendBytes bytes a, .result r]))

/-- R211. `InvalidArgument` has exactly these causes, changes no state and emits nothing. -/
def Obligations.InvalidArgumentHasExactlyItsCauses : Prop :=
  ∀ (i : Instr) (s t : State), isEncoder i = true → exec i s = .next t →
    (t.returned = some (.encoder .invalidArgument) ↔
      s.session.life = .absent ∨
      (∃ kind id dlc data, i = .encFrame kind id dlc data ∧ 8 < dlc.toNat) ∨
      (∃ ids, i = .encFilter ids ∧ (ids = [] ∨ 255 < ids.length))) ∧
    (t.returned = some (.encoder .invalidArgument) → t = { s with
      trace := s.trace ++ [.result .invalidArgument], returned := some (.encoder .invalidArgument) })

/-- R81, R111 to R114, against R73, R76 to R78: what an encoder hands to the byte sink is, read as serial bytes, the
whole message of its row, with every content condition of the row met (for a data frame, where its identifier is in
range) and nothing left over. -/
def Obligations.EncoderOutputIsItsWireRow : Prop :=
  (∀ (kind : IdKind) (id : Word32) (dlc : Byte) (data : List Byte), dlc.toNat ≤ 8 → data.length = 8 →
    ∃ i, decodeWire (frameMessage kind id dlc data) = some (i, []) ∧ i.wf = true ∧
      (id.toNat ≤ idMax kind → contentValid i = true) ∧
      (match kind with
        | .standard => i = .dataFrameStd false (id.setWidth 16) (data.take dlc.toNat) 0x55
        | .extended => i = .dataFrameExt false id (data.take dlc.toNat) 0x55)) ∧
  (∀ (baud kind : Byte) (filterId maskId : Word32) (mode : Byte),
    ∃ sum, decodeWire (configMessage baud kind filterId maskId mode) =
      some (.configMsg baud kind filterId maskId mode 0x01 [0, 0, 0, 0] sum, []) ∧
      contentValid (.configMsg baud kind filterId maskId mode 0x01 [0, 0, 0, 0] sum) = true) ∧
  (∀ ids : List Word32, 1 ≤ ids.length → ids.length ≤ 255 →
    ∃ sum, decodeWire (filterMessage ids) = some (.filterEnable ids sum, []) ∧
      contentValid (.filterEnable ids sum) = true) ∧
  decodeWire cancelMessage = some (.filterCancel, [])

/-! ### FEED, state by state -/

/-- R142. -/
def Obligations.FeedInWaitStart : Prop :=
  ∀ (b : Byte) (s : State), s.Ready → s.session.detectState = .waitStart →
    (b = 0xAA → exec (.feed b) s = .next { s with
      returned := none
      session := { s.session with rxBuffer := stored s.session 0 b, cursor := 1, detectState := .frameInfo } }) ∧
    (b ≠ 0xAA → exec (.feed b) s = .next { s with returned := none })

/-- R143. `(b & 0xC0) = 0xC0` is `192 ≤ b`, DLC is `b mod 16`, bit 5 is `b / 32 mod 2`. -/
def Obligations.FeedInFrameInfo : Prop :=
  ∀ (b : Byte) (s : State), s.Ready → s.session.detectState = .frameInfo →
    (b = 0x55 → exec (.feed b) s = .next { s with
      returned := none
      session := { s.session with rxBuffer := stored s.session 1 b, cursor := 2, detectState := .controllerStatus } }) ∧
    (192 ≤ b.toNat → 8 < b.toNat % 16 → exec (.feed b) s = .next { s with
      returned := none, session := ended s.session (stored s.session 1 b) }) ∧
    (192 ≤ b.toNat → b.toNat % 16 ≤ 8 → exec (.feed b) s = .next { s with
      returned := none
      session := { s.session with
        rxBuffer := stored s.session 1 b
        cursor := 2
        pendingDlc := BitVec.ofNat 4 (b.toNat % 16)
        pendingType := if b.toNat / 32 % 2 = 1 then .extended else .standard
        detectState := if b.toNat / 32 % 2 = 1 then .idExt else .idStd } }) ∧
    (b.toNat < 192 → b ≠ 0x55 → exec (.feed b) s = .next { s with
      returned := none
      session := { s.session with rxBuffer := stored s.session 1 b, cursor := 1 } })

/-- R144, for the cursors R36 gives the state. -/
def Obligations.FeedInIdStd : Prop :=
  ∀ (b : Byte) (s : State), s.Ready → s.session.detectState = .idStd →
    (s.session.cursor = 2 → exec (.feed b) s = .next { s with
      returned := none
      session := { s.session with
        rxBuffer := stored s.session 2 b, pendingId := { s.session.pendingId with id0 := b }, cursor := 3 } }) ∧
    (s.session.cursor = 3 → exec (.feed b) s = .next { s with
      returned := none
      session := { s.session with
        rxBuffer := stored s.session 3 b, pendingId := { s.session.pendingId with id1 := b }, cursor := 4
        detectState := if s.session.pendingDlc.toNat = 0 then .eof else .data } })

/-- R145, for the cursors R36 gives the state. -/
def Obligations.FeedInIdExt : Prop :=
  ∀ (b : Byte) (s : State), s.Ready → s.session.detectState = .idExt →
    (s.session.cursor = 2 → exec (.feed b) s = .next { s with
      returned := none
      session := { s.session with
        rxBuffer := stored s.session 2 b, pendingId := { s.session.pendingId with id0 := b }, cursor := 3 } }) ∧
    (s.session.cursor = 3 → exec (.feed b) s = .next { s with
      returned := none
      session := { s.session with
        rxBuffer := stored s.session 3 b, pendingId := { s.session.pendingId with id1 := b }, cursor := 4 } }) ∧
    (s.session.cursor = 4 → exec (.feed b) s = .next { s with
      returned := none
      session := { s.session with
        rxBuffer := stored s.session 4 b, pendingId := { s.session.pendingId with id2 := b }, cursor := 5 } }) ∧
    (s.session.cursor = 5 → exec (.feed b) s = .next { s with
      returned := none
      session := { s.session with
        rxBuffer := stored s.session 5 b, pendingId := { s.session.pendingId with id3 := b }, cursor := 6
        detectState := if s.session.pendingDlc.toNat = 0 then .eof else .data } })

/-- R146, for every cursor inside the buffer. -/
def Obligations.FeedInData : Prop :=
  ∀ (b : Byte) (s : State), s.Ready → s.session.detectState = .data → s.session.cursor < 20 →
    exec (.feed b) s = .next { s with
      returned := none
      session := { s.session with
        rxBuffer := stored s.session s.session.cursor b
        cursor := s.session.cursor + 1
        detectState :=
          if s.session.cursor + 1 = dataStart s.session.pendingType + s.session.pendingDlc.toNat then .eof else .data } }

/-- R147 and R149, at the cursor R36 gives the state, with the frame as R149 assembles it from the buffer. That a sink call
takes one entry of `sinkConduct` is the model's choice (log entry 10). -/
def Obligations.FeedInEof : Prop :=
  ∀ (b : Byte) (s : State) (f : Frame) (after : State), s.Ready → s.session.detectState = .eof →
    s.session.cursor = dataStart s.session.pendingType + s.session.pendingDlc.toNat → s.session.cursor ≤ 14 →
    f = ⟨s.session.pendingType, BitVec.ofNat 32 (idNumber s.session.pendingId), s.session.pendingDlc.toNat,
      (List.range s.session.pendingDlc.toNat).map fun i =>
        s.session.rxBuffer.read (dataStart s.session.pendingType + i)⟩ →
    after = { s with
      returned := none, session := ended s.session (stored s.session s.session.cursor b) } →
    (b ≠ 0x55 → exec (.feed b) s = .next after) ∧
    (b = 0x55 → idMax f.kind < f.id.toNat → exec (.feed b) s = .next after) ∧
    (b = 0x55 → f.id.toNat ≤ idMax f.kind → s.session.frameSinkPresent = false → exec (.feed b) s = .next after) ∧
    (b = 0x55 → f.id.toNat ≤ idMax f.kind → s.session.frameSinkPresent = true → s.NextSinkQuiet →
      exec (.feed b) s = .next { after with
        trace := s.trace ++ [.frameEvent f], sinkConduct := s.sinkConduct.tail })

/-- R148, for the cursors R36 gives the state; the checksum is the sum of the 17 buffer bytes at indices 2..18.
That a sink call takes one entry of `sinkConduct` is the model's choice (log entry 10). -/
def Obligations.FeedInControllerStatus : Prop :=
  ∀ (b : Byte) (s : State) (sum : Byte) (after : State), s.Ready → s.session.detectState = .controllerStatus →
    sum = sumMod256 ((List.range 17).map fun i => s.session.rxBuffer.read (2 + i)) →
    after = { s with
      returned := none, session := ended s.session (stored s.session s.session.cursor b) } →
    (s.session.cursor = 2 → b ≠ 0x04 → exec (.feed b) s = .next after) ∧
    ((s.session.cursor = 2 ∧ b = 0x04) ∨ s.session.cursor = 3 ∨ (6 ≤ s.session.cursor ∧ s.session.cursor ≤ 18) →
      exec (.feed b) s = .next { s with
        returned := none
        session := { s.session with
          rxBuffer := stored s.session s.session.cursor b, cursor := s.session.cursor + 1 } }) ∧
    (s.session.cursor = 4 → exec (.feed b) s = .next { s with
      returned := none
      session := { s.session with rxBuffer := stored s.session 4 b, cursor := 5, pendingRxErr := b } }) ∧
    (s.session.cursor = 5 → exec (.feed b) s = .next { s with
      returned := none
      session := { s.session with rxBuffer := stored s.session 5 b, cursor := 6, pendingTxErr := b } }) ∧
    (s.session.cursor = 19 → b ≠ sum → exec (.feed b) s = .next after) ∧
    (s.session.cursor = 19 → b = sum → s.session.statusSinkPresent = false → exec (.feed b) s = .next after) ∧
    (s.session.cursor = 19 → b = sum → s.session.statusSinkPresent = true → s.NextSinkQuiet →
      exec (.feed b) s = .next { after with
        trace := s.trace ++ [.statusEvent s.session.pendingTxErr s.session.pendingRxErr]
        sinkConduct := s.sinkConduct.tail })

/-! ### FEED: frames and whole-machine rules -/

/-- R53, R50: FEED stores to one index, 0 in `WaitStart`, 1 in `FrameInfo`, `cursor` elsewhere, and always below 20; in
`WaitStart` a byte other than 0xAA is stored nowhere. Every other byte reads as before, and the stored one reads back. -/
def Obligations.FeedStoresOneByte : Prop :=
  ∀ (b : Byte) (s t : State) (index : Nat),
    index = (match s.session.detectState with | .waitStart => 0 | .frameInfo => 1 | _ => s.session.cursor) →
    exec (.feed b) s = .next t →
    (∀ a, a ≠ index → t.session.rxBuffer.read a = s.session.rxBuffer.read a) ∧
    (s.session.detectState = .waitStart ∧ b ≠ 0xAA → ∀ a, t.session.rxBuffer.read a = s.session.rxBuffer.read a) ∧
    (¬ (s.session.detectState = .waitStart ∧ b ≠ 0xAA) → index < 20 ∧ t.session.rxBuffer.read index = b)

/-- The frame of FEED and of the wire messages (R22 to R29, R32): the lifecycle and the sink bits, the inputs and the
draws stay; nothing is returned; the trace gets events only. -/
def Obligations.ReceptionLeavesTheRest : Prop :=
  ∀ (i : Instr) (s t : State), receives i = true → exec i s = .next t →
    t.session.life = s.session.life ∧ t.session.frameSinkPresent = s.session.frameSinkPresent ∧
    t.session.statusSinkPresent = s.session.statusSinkPresent ∧ t.session.byteSinkPresent = s.session.byteSinkPresent ∧
    t.overlapping = s.overlapping ∧ t.sinkCallInProgress = s.sinkCallInProgress ∧ t.input = s.input ∧
    t.initAnswers = s.initAnswers ∧ t.byteSinkAnswers = s.byteSinkAnswers ∧ t.draws = s.draws ∧ t.returned = none ∧
    ∃ events, t.trace = s.trace ++ events ∧ ∀ e ∈ events, isEvent e = true

/-- R141: whenever a FEED ends a message, every pending field and `cursor` are cleared, the buffer is not (it keeps all
but the byte just stored), and nothing else of the Session changes. -/
def Obligations.EndedMessageClearsEveryPendingField : Prop :=
  ∀ (b : Byte) (s t : State), s.session.detectState ≠ .waitStart → exec (.feed b) s = .next t →
    t.session.detectState = .waitStart →
    t.session = ended s.session
      (stored s.session (if s.session.detectState = .frameInfo then 1 else s.session.cursor) b)

/-- R152, which the spec marks as its own inference from R147 and R148: zero or one event per FEED, only in the two cases
named, and every such FEED ends the message. -/
def Obligations.FeedEmitsAtMostOneEvent : Prop :=
  ∀ (b : Byte) (s t : State), exec (.feed b) s = .next t →
    t.trace = s.trace ∨
    ∃ e, t.trace = s.trace ++ [e] ∧ isEvent e = true ∧ t.session.Idle ∧
      ((s.session.detectState = .eof ∧ b = 0x55 ∧ idNumber s.session.pendingId ≤ idMax s.session.pendingType) ∨
       (s.session.detectState = .controllerStatus ∧ t.session.cursor = 0 ∧ s.session.cursor + 1 = 20 ∧
         sumMod256 ((List.range 17).map fun i => s.session.rxBuffer.read (2 + i)) = b))

/-- R153: the transition relation, line by line, total over the states of R36: with quiet sinks a FEED answers a next
state in the table's state, and the trace changes exactly where the table has an event and its sink is attached; which event
it is, `FeedInEof` and `FeedInControllerStatus` say. That the relation is total is the spec's own inference from R142 to
R148. -/
def Obligations.TransitionRelationIsComplete : Prop :=
  ∀ (b : Byte) (s : State), s.Inv → s.Ready → s.NextSinkQuiet →
    ∃ t, exec (.feed b) s = .next t ∧ t.session.detectState = nextDetectState s.session b ∧
      (t.trace ≠ s.trace ↔ eventAllowed s.session b ∧ eventSink s.session = true) ∧
      (s.session.detectState ≠ .waitStart ∧ nextDetectState s.session b = .waitStart → t.session.Idle)

/-- R154: from any state but `WaitStart` and `FrameInfo`, whatever the bytes, the machine is back in `WaitStart` within
18 FEEDs, and within 13 from any state of a data frame. -/
def Obligations.RecoveryWithinEighteenFeeds : Prop :=
  ∀ (s : State) (bytes : List Byte), s.Inv → s.Ready → s.SinksQuiet →
    s.session.detectState ≠ .waitStart → s.session.detectState ≠ .frameInfo →
    bytes.length = (if s.session.detectState = .controllerStatus then 18 else 13) →
    ∃ k t, k ≤ bytes.length ∧ feedBytes (bytes.take k) s = .next t ∧ t.session.detectState = .waitStart

/-- R213: a byte that meets a drop adds no event and is no error: an ignored byte changes nothing, a discarded one leaves
`FrameInfo` at cursor 1, and each of the five others runs ResetMessage. -/
def Obligations.DropsAreSilent : Prop :=
  ∀ (b : Byte) (s : State) (d : Drop), s.Inv → s.Ready → dropOf b s.session = some d →
    ∃ t, exec (.feed b) s = .next t ∧ t.trace = s.trace ∧ t.sinkConduct = s.sinkConduct ∧
      (d = .ignored → t.session = s.session) ∧
      (d = .discardUnrecognized → t.session = { s.session with rxBuffer := stored s.session 1 b, cursor := 1 }) ∧
      (d ≠ .ignored → d ≠ .discardUnrecognized → t.session = ended s.session
        (stored s.session (if s.session.detectState = .frameInfo then 1 else s.session.cursor) b))

/-- R245, R246: `FrameInfo` fed only unrecognized bytes, a second 0xAA among them, stays there for ever, with no event;
it never reverts to `WaitStart`. -/
def Obligations.FrameInfoKeepsWaiting : Prop :=
  ∀ (bytes : List Byte) (s : State), s.Ready → s.session.detectState = .frameInfo → s.session.cursor = 1 →
    (∀ b ∈ bytes, b ≠ 0x55 ∧ b.toNat < 192) →
    ∃ t, feedBytes bytes s = .next t ∧ t.trace = s.trace ∧ t.session.detectState = .frameInfo ∧ t.session.cursor = 1 ∧
      t.session.pendingId = s.session.pendingId ∧ t.session.pendingDlc = s.session.pendingDlc

/-- R140: "no wire content raises anything". With sinks that call nothing back, FEED of any byte and every wire message
(a CONFIG_MSG and a FILTER_ENABLE among them) answer a next state, again a live Session in the invariant. -/
def Obligations.ReceptionAlwaysCompletes : Prop :=
  ∀ (i : Instr) (s : State), receives i = true → s.Inv → s.Ready → s.SinksQuiet →
    ∃ t, exec i s = .next t ∧ t.Inv ∧ t.Ready ∧ t.SinksQuiet

/-! ### Invariants -/

/-- The invariant holds at power-on. With no Session live the table of R36 asks nothing (R21, R36); what is left is the
model's own: the canonical form (log entry 7) of the empty buffer it holds there, and no sink call in progress (log entry
6). -/
def Obligations.PowerOnSatisfiesInvariant : Prop := State.reset.Inv

/-- R36, R24, R27, R50: every step keeps the invariant: the table of R36 for a live Session, the prefix of the buffer that
`cursor` counts written, the high identifier bytes of a standard frame zero, the buffer in canonical form inside 0..19. -/
def Obligations.StepKeepsInvariant : Prop := ∀ s t : State, s.Inv → step s = .next t → t.Inv

/-- R53: in the invariant no step makes a buffer access out of bounds. -/
def Obligations.BufferBoundsIsNeverRaised : Prop := ∀ s : State, s.Inv → step s ≠ .fault .bufferBounds

/-- R93, R84: every frame event the trace holds has dlc at most 8, as many data bytes, and an identifier in its kind's
range; a step keeps that. -/
def Obligations.DeliveredFramesAreValid : Prop :=
  ∀ s t : State, s.Inv → (∀ e ∈ s.trace, frameValid e) → step s = .next t → ∀ e ∈ t.trace, frameValid e

/-- R57: the trace only grows, at its end. -/
def Obligations.TraceOnlyGrows : Prop := ∀ s t : State, step s = .next t → ∃ new, t.trace = s.trace ++ new

/-- R29: only INIT writes the sink-presence bits. -/
def Obligations.OnlyInitWritesSinkBits : Prop :=
  ∀ (i : Instr) (s t : State), (∀ sinks, i ≠ .init sinks) → exec i s = .next t →
    t.session.frameSinkPresent = s.session.frameSinkPresent ∧
    t.session.statusSinkPresent = s.session.statusSinkPresent ∧ t.session.byteSinkPresent = s.session.byteSinkPresent

/-- R21, R22: only INIT and DEINIT write `life`; and of the operations only FEED (alone or in a wire message) and INIT
change the receive state. -/
def Obligations.OnlyLifecycleOperationsWriteLife : Prop :=
  ∀ (i : Instr) (s t : State), exec i s = .next t →
    ((∀ sinks, i ≠ .init sinks) → i ≠ .deinit → t.session.life = s.session.life) ∧
    ((∀ sinks, i ≠ .init sinks) → receives i = false →
      { t.session with life := s.session.life } = s.session)

/-- R23, I11: what the unwritten bytes of the buffer read as is unobservable: with another content in their place every
operation but INIT answers the same, but for that content itself. -/
def Obligations.UnwrittenBytesAreUnobservable : Prop :=
  ∀ (i : Instr) (s : State) (e : Nat), s.Inv → (∀ sinks, i ≠ .init sinks) →
    exec i (withEpoch e s) = mapNext (withEpoch e) (exec i s)

/-- R62: encoder operations interleaved anywhere in a FEED stream change neither the events it produces nor the Session
it leaves (sinks that call nothing back). -/
def Obligations.EncodersMayBeInterleaved : Prop :=
  ∀ (ops : List Instr) (s t : State), s.Ready → s.SinksQuiet →
    (∀ i ∈ ops, isEncoder i = true ∨ ∃ b, i = .feed b) → runAll ops s = .next t →
    ∃ u, runAll (ops.filter receives) s = .next u ∧ u.session = t.session ∧
      u.trace.filter isEvent = t.trace.filter isEvent

/-! ### Wire messages -/

/-- R92: a wire message is the FEED operations of its bytes, one after another, from any state and however they end. -/
def Obligations.WireMessagesAreTheirFeeds : Prop :=
  ∀ (i : Instr) (s : State), i.port = .wire → exec i s = runAll ((encode i).map .feed) s

/-- R92, R91: `FEEDS` expands to one FEED operation per byte, and ENC_FRAME data bytes beyond the list are taken as 0x00
in the record. -/
def Obligations.AssemblyFormsExpand : Prop :=
  (∀ (bytes : List Byte) (s : State), runAll (AsmLine.instrs (.feeds bytes)) s = feedBytes bytes s) ∧
  (∀ (kind : IdKind) (id : Word32) (dlc : Byte) (data : List Byte), data.length ≤ 8 →
    ∃ slots, AsmLine.instrs (.encFrame kind id dlc data) = [.encFrame kind id dlc slots] ∧ slots.length = 8 ∧
      ∀ k, k < 8 → slots[k]? = some (data.getD k 0x00))

/-- R73, R142 to R147, R84: a standard data frame that arrives while no message is in progress is delivered once, with
its identifier and data, exactly when its terminator is 0x55, its identifier is at most 0x7FF and the sink is attached;
in every case the Session is idle again and only the buffer has changed: it holds the message's bytes from index 0, and
every byte past them is as before. -/
def Obligations.StandardDataFrameReceived : Prop :=
  ∀ (bit4 : Bool) (id : Word16) (data : List Byte) (eof : Byte) (s : State), data.length ≤ 8 →
    s.Ready → s.session.Idle → s.NextSinkQuiet →
    ∃ t, exec (.dataFrameStd bit4 id data eof) s = .next t ∧
      t.session = { s.session with rxBuffer := t.session.rxBuffer } ∧
      (∀ a, t.session.rxBuffer.read a = (encode (.dataFrameStd bit4 id data eof)).getD a (s.session.rxBuffer.read a)) ∧
      t.trace = s.trace ++
        (if eof = 0x55 ∧ id.toNat ≤ 0x7FF ∧ s.session.frameSinkPresent = true
         then [.frameEvent ⟨.standard, BitVec.ofNat 32 id.toNat, data.length, data⟩] else [])

/-- R74, R142 to R147, R84: the same for an extended data frame, whose identifier is at most 0x1FFFFFFF. -/
def Obligations.ExtendedDataFrameReceived : Prop :=
  ∀ (bit4 : Bool) (id : Word32) (data : List Byte) (eof : Byte) (s : State), data.length ≤ 8 →
    s.Ready → s.session.Idle → s.NextSinkQuiet →
    ∃ t, exec (.dataFrameExt bit4 id data eof) s = .next t ∧
      t.session = { s.session with rxBuffer := t.session.rxBuffer } ∧
      (∀ a, t.session.rxBuffer.read a = (encode (.dataFrameExt bit4 id data eof)).getD a (s.session.rxBuffer.read a)) ∧
      t.trace = s.trace ++
        (if eof = 0x55 ∧ id.toNat ≤ 0x1FFFFFFF ∧ s.session.frameSinkPresent = true
         then [.frameEvent ⟨.extended, id, data.length, data⟩] else [])

/-- R79, R148: a status report that arrives while no message is in progress is delivered once, txErr and rxErr from
indices 5 and 4, exactly when its checksum is the sum of indices 2..18 and the sink is attached. -/
def Obligations.StatusReportReceived : Prop :=
  ∀ (rsv0 rxErr txErr : Byte) (rsv1 : List Byte) (sum : Byte) (s : State), rsv1.length = 13 →
    s.Ready → s.session.Idle → s.NextSinkQuiet →
    ∃ t, exec (.statusReport rsv0 rxErr txErr rsv1 sum) s = .next t ∧
      t.session = { s.session with rxBuffer := t.session.rxBuffer } ∧
      (∀ a, t.session.rxBuffer.read a = (encode (.statusReport rsv0 rxErr txErr rsv1 sum)).getD a (s.session.rxBuffer.read a)) ∧
      t.trace = s.trace ++
        (if sum = sumMod256 ([0x04, rsv0, rxErr, txErr] ++ rsv1) ∧ s.session.statusSinkPresent = true
         then [.statusEvent txErr rxErr] else [])

/-- The checksum boundary property of 95_test_vectors.md (P-CK), R148: a status report with one byte of its payload
(indices 3..18) changed under an unchanged checksum gives no event, whatever it gave before. -/
def Obligations.ChangedStatusPayloadIsDropped : Prop :=
  ∀ (payload : List Byte) (k : Nat) (x : Byte) (s : State), payload.length = 16 → k < 16 → payload[k]? ≠ some x →
    s.Ready → s.session.Idle → s.NextSinkQuiet →
    ∃ t, feedBytes ([0xAA, 0x55, 0x04] ++ payload.set k x ++ [sumMod256 (0x04 :: payload)]) s = .next t ∧
      t.trace = s.trace ∧ t.session.Idle

/-- R85, R148: command messages have no decode path. A CONFIG_MSG, FILTER_ENABLE, FILTER_CANCEL or other discriminator
that arrives while no message is in progress is abandoned at index 2, and the bytes after index 2 are received from
`WaitStart`; where none of them is 0xAA, it leaves no trace and an idle Session. -/
def Obligations.CommandMessagesAreAbandoned : Prop :=
  ∀ (i : Instr) (s abandoned : State) (disc : Byte),
    ((∃ baud kind f m mode const rsv sum, i = .configMsg baud kind f m mode const rsv sum ∧ disc = 0x12) ∨
     (∃ ids sum, i = .filterEnable ids sum ∧ disc = 0x10) ∨ (i = .filterCancel ∧ disc = 0x10) ∨
     (i = .statusPathOtherDisc disc ∧ disc ≠ 0x04)) →
    s.Ready → s.session.Idle →
    abandoned = { s with
      returned := none
      session := { s.session with rxBuffer := { s.session.rxBuffer with
        cells := ((s.session.rxBuffer.cells.write 0 0xAA).write 1 0x55).write 2 disc } } } →
    exec i s = feedBytes ((encode i).drop 3) abandoned ∧
    ((∀ b ∈ (encode i).drop 3, b ≠ 0xAA) → exec i s = .next abandoned)

/-- R87, R143: the two reserved rows of `FrameInfo`, each with the state it leaves. -/
def Obligations.ReservedFrameInfoBytesReceived : Prop :=
  ∀ s : State, s.Ready → s.session.Idle →
    (∀ ctrl : Byte, 192 ≤ ctrl.toNat → 8 < ctrl.toNat % 16 → exec (.ctrlDlcInvalid ctrl) s = .next { s with
      returned := none
      session := { s.session with rxBuffer := { s.session.rxBuffer with
        cells := (s.session.rxBuffer.cells.write 0 0xAA).write 1 ctrl } } }) ∧
    (∀ b : Byte, b.toNat < 192 → b ≠ 0x55 → exec (.frameInfoUnrecognized b) s = .next { s with
      returned := none
      session := { s.session with
        detectState := .frameInfo
        cursor := 1
        rxBuffer := { s.session.rxBuffer with cells := (s.session.rxBuffer.cells.write 0 0xAA).write 1 b } } })

/-- The round-trip property of 95_test_vectors.md (P-RT), R111 with R147 and R149, for every DLC 0..8, both kinds and
every identifier in range: what ENC_FRAME hands to the byte sink, fed back into any Session with no message in progress,
gives exactly one event, the original frame. -/
def Obligations.EncodedFrameDecodesToItself : Prop :=
  ∀ (kind : IdKind) (id : Word32) (dlc : Byte) (data : List Byte) (s t u : State),
    dlc.toNat ≤ 8 → data.length = 8 → id.toNat ≤ idMax kind →
    s.Ready → s.session.byteSinkPresent = true → exec (.encFrame kind id dlc data) s = .next t →
    u.Ready → u.session.Idle → u.session.frameSinkPresent = true → u.NextSinkQuiet →
    ∃ bytes a v, t.trace = s.trace ++ [.sendBytes bytes a, .result (resultOf a)] ∧ feedBytes bytes u = .next v ∧
      v.trace = u.trace ++ [.frameEvent ⟨kind, id, dlc.toNat, data.take dlc.toNat⟩]

/-! ### Encodings -/

/-- R89: for every well-formed host instruction, every operand at every value, the record decodes to it. -/
def Obligations.HostRecordDecodesToItsInstruction : Prop :=
  ∀ i : Instr, i.port = .host → i.wf = true → decode .host (encode i) = some (i, [])

/-- R89, R90: every byte sequence is the record of exactly the instruction it decodes to, and that is well-formed. -/
def Obligations.EveryHostRecordHasOneMeaning : Prop :=
  ∀ record : List Byte, encode (decodeHost record) = record ∧ (decodeHost record).wf = true ∧
    (decodeHost record).port = .host

/-- R90: a record that is of an unknown operation, shorter or longer than R89 gives, of an ENC_FRAME with kind 2 or
above, or of an INIT with any of bits 7:3 set is refused by the step that presents it; no other record is, where sinks
call nothing back; an ENC_FILTER with n = 0 is well formed and gives InvalidArgument. That the refusal comes before
CONCURRENT_CALL, so in every state, is the model's reading (log entry 19). -/
def Obligations.IllFormedRecordsAreRefused : Prop :=
  ∀ (record : List Byte) (s : State) (rest : List Pending), s.input = ⟨.host, record, false⟩ :: rest →
    (recordWellFormed record = false → decodeHost record = .illFormedRecord record ∧ step s = .refused .illFormedRecord) ∧
    (recordWellFormed record = true → ∀ r, decodeHost record ≠ .illFormedRecord r) ∧
    (recordWellFormed record = true → s.SinksQuiet → step s ≠ .refused .illFormedRecord) ∧
    (∀ (r : List Byte) (u : State), exec (.illFormedRecord r) u = .refused .illFormedRecord) ∧
    (∀ u : State, u.Ready → exec (decodeHost [0x04, 0x00]) u = .next { u with
      trace := u.trace ++ [.result .invalidArgument], returned := some (.encoder .invalidArgument) }) ∧
    (recordWellFormed record = true ↔
      ∃ op args, record = op :: args ∧
        ((op = 0x01 ∧ args.length = 1) ∨
         (op = 0x02 ∧ args.length = 14 ∧ (args.headD 0).toNat < 2) ∨
         (op = 0x03 ∧ args.length = 11) ∨
         (op = 0x04 ∧ args.length = 1 + 4 * (args.headD 0).toNat ∧ args ≠ []) ∨
         (op = 0x05 ∧ args = []) ∨
         (op = 0x06 ∧ args.length = 1 ∧ (args.headD 0).toNat < 8) ∨
         (op = 0x07 ∧ args = [])))

/-- R73 to R79: for every well-formed wire message its bytes decode to it with nothing left, and, but for a bare
discriminator 0x10 or 0x12 (which may be the start of a longer row), with whatever follows it left. -/
def Obligations.WireMessageDecodesToItsRow : Prop :=
  ∀ i : Instr, i.port = .wire → i.wf = true →
    decode .wire (encode i) = some (i, []) ∧
    ∀ rest, i ≠ .statusPathOtherDisc 0x10 → i ≠ .statusPathOtherDisc 0x12 →
      decode .wire (encode i ++ rest) = some (i, rest)

/-- R70, R86: reading serial bytes loses none and invents none: the bytes of the instruction read, then what is left, are
the bytes there were; the instruction is FEED or a well-formed wire message. -/
def Obligations.SerialBytesAreSplitExactly : Prop :=
  ∀ (bytes rest : List Byte) (i : Instr), decodeWire bytes = some (i, rest) →
    serialBytes i ++ rest = bytes ∧ serialBytes i ≠ [] ∧ receives i = true ∧ i.wf = true

/-- The words of a few rows, written out from the encodings of R73, R78, R79, R89 (tables) and the vectors of 95, decode
to what they stand for. -/
def Obligations.SampleWordsDecode : Prop :=
  decode .host [0x01, 0xAA] = some (.feed 0xAA, []) ∧
  decode .host [0x06, 0x05] = some (.init ⟨true, false, true⟩, []) ∧
  decode .host [0x04, 0x01, 0x78, 0x56, 0x34, 0x12] = some (.encFilter [0x12345678], []) ∧
  decode .wire [0xAA, 0xC1, 0xFF, 0x07, 0x55, 0x55] = some (.dataFrameStd false 0x7FF [0x55] 0x55, []) ∧
  decode .wire [0xAA, 0x55, 0x10, 0x00, 0x10] = some (.filterCancel, [])

/-- R80: the checksum is the sum of the bytes of the range, modulo 256; the test at the status report's end is the same
function over the buffer bytes 2..18. -/
def Obligations.ChecksumIsTheSumModulo256 : Prop :=
  (∀ (m : List Byte) (lo hi : Nat), lo ≤ hi → hi ≤ m.length →
    (checksum m lo hi).toNat = ((List.range (hi - lo)).map fun i => (m.getD (lo + i) 0).toNat).sum % 256) ∧
  (∀ (r : RxBuffer) (b : Byte), statusChecksumOk r b = true ↔
    b.toNat = ((List.range 17).map fun i => (r.read (2 + i)).toNat).sum % 256)

/-- R52, R82, R27: every multi-byte field is little-endian, in both directions. -/
def Obligations.FieldsAreLittleEndian : Prop :=
  (∀ w : Word32, le32 w = leBytes 4 w.toNat) ∧ (∀ w : Word16, le16 w = leBytes 2 w.toNat) ∧
  (∀ a b c d : Byte, (word32 a b c d).toNat = a.toNat + 256 * b.toNat + 65536 * c.toNat + 16777216 * d.toNat) ∧
  (∀ p : IdBytes, p.value.toNat = idNumber p) ∧
  (∀ id : Word32, idField .standard id = leBytes 2 id.toNat ∧ idField .extended id = leBytes 4 id.toNat)

/-! ### The step -/

/-- R5, R60: a step runs the instruction at the head of what is presented, as one whole; with nothing presented it does
nothing. An instruction presented by its own encoding is the one that runs. -/
def Obligations.StepRunsThePresentedInstruction : Prop :=
  (∀ s : State, s.input = [] → step s = .next s) ∧
  (∀ (s : State) (p : Pending) (rest : List Pending) (i : Instr) (left : List Byte),
    s.input = p :: rest → decode p.port p.bytes = some (i, left) →
    step s = exec i { s with
      input := if left = [] then rest else { p with bytes := left } :: rest, overlapping := p.overlaps }) ∧
  (∀ (s : State) (p : Pending) (rest : List Pending),
    s.input = p :: rest → decode p.port p.bytes = none → step s = .next { s with input := rest })

/-- An instruction presented by its own encoding is the one the step runs (R89, R73 to R79). -/
def Obligations.StepRunsAnEncodedInstruction : Prop :=
  ∀ (i : Instr) (s : State) (rest : List Pending) (overlaps : Bool), i.wf = true →
    s.input = ⟨i.port, encode i, overlaps⟩ :: rest →
    step s = exec i { s with input := rest, overlapping := overlaps }

/-- R92 ("how a caller groups bytes does not change the events"): a step on serial bytes is the FEEDs of one or more of
them, in order, and leaves the others presented. -/
def Obligations.StepOnSerialBytesIsFeeds : Prop :=
  ∀ (s : State) (bytes : List Byte) (overlaps : Bool) (rest : List Pending), bytes ≠ [] →
    s.input = ⟨.wire, bytes, overlaps⟩ :: rest →
    ∃ k, 1 ≤ k ∧ k ≤ bytes.length ∧
      step s = feedBytes (bytes.take k) { s with
        input := if bytes.drop k = [] then rest else ⟨.wire, bytes.drop k, overlaps⟩ :: rest
        overlapping := overlaps }

/-! ### Sinks that are gone -/

/-- R244: "Keep each attached sink valid until DEINIT" ends in a fault where it is broken: any operation that calls an
attached sink which is no longer valid. An operation that calls no sink does not meet it. The fault's name, and that
`sinkConduct` says which call meets such a sink, are the model's choice (log entry 16). -/
def Obligations.CallingAnInvalidSinkStops : Prop :=
  ∀ (s : State) (rest : List SinkConduct) (i : Instr), s.Ready → s.sinkConduct = .gone :: rest →
    callsSink i s.session → exec i s = .fault .invalidSink
end

