-- ==== Sys2Proof/Laws/Encoding.lean ====
section
/-! SUPPORT. The bit fields and the byte order: each field read back from the bytes written. -/

namespace Sys2Proof

theorem word16_le16 (w : Word16) : word16 (w.extractLsb' 0 8) (w.extractLsb' 8 8) = w := by
  refine BitVec.eq_of_getLsbD_eq fun i hi => ?_
  simp only [word16, BitVec.getLsbD_or, BitVec.getLsbD_setWidth, BitVec.getLsbD_shiftLeft, BitVec.getLsbD_extractLsb']
  rcases lt_or_ge i 8 with h | h
  · simp [h, hi]
  · simp [hi, show i - 8 < 8 by omega, show ¬ i < 8 by omega, show i - 8 < 16 by omega, show 8 + (i - 8) = i by omega]

theorem word32_le32 (w : Word32) :
    word32 (w.extractLsb' 0 8) (w.extractLsb' 8 8) (w.extractLsb' 16 8) (w.extractLsb' 24 8) = w := by
  refine BitVec.eq_of_getLsbD_eq fun i hi => ?_
  simp only [word32, BitVec.getLsbD_or, BitVec.getLsbD_setWidth, BitVec.getLsbD_shiftLeft, BitVec.getLsbD_extractLsb']
  rcases lt_or_ge i 8 with h | h
  · simp [h, hi, show i < 16 by omega, show i < 24 by omega]
  rcases lt_or_ge i 16 with h1 | h1
  · simp [hi, show i - 8 < 8 by omega, show ¬ i < 8 by omega, h1, show i < 24 by omega, show i - 8 < 32 by omega,
      show 8 + (i - 8) = i by omega]
  rcases lt_or_ge i 24 with h2 | h2
  · simp [hi, show i - 16 < 8 by omega, show ¬ i < 8 by omega, show ¬ i < 16 by omega, h2, show ¬ i - 8 < 8 by omega,
      show i - 16 < 32 by omega, show 16 + (i - 16) = i by omega]
  · simp [hi, show i - 24 < 8 by omega, show ¬ i < 8 by omega, show ¬ i < 16 by omega, show ¬ i < 24 by omega,
      show ¬ i - 8 < 8 by omega, show ¬ i - 16 < 8 by omega, show i - 24 < 32 by omega, show 24 + (i - 24) = i by omega]

theorem le16_word16 (a b : Byte) : le16 (word16 a b) = [a, b] := by
  simp only [le16, word16, List.cons.injEq, and_true]
  refine ⟨?_, ?_⟩ <;> refine BitVec.eq_of_getLsbD_eq fun i hi => ?_ <;>
    simp only [BitVec.getLsbD_extractLsb', BitVec.getLsbD_or, BitVec.getLsbD_setWidth, BitVec.getLsbD_shiftLeft]
  · simp [hi, show i < 16 by omega]
  · simp [hi, show i < 16 by omega, show 8 + i < 16 by omega]

theorem le32_word32 (a b c d : Byte) : le32 (word32 a b c d) = [a, b, c, d] := by
  have ha := fun k (h : 8 ≤ k) => BitVec.getLsbD_of_ge a k h
  have hb := fun k (h : 8 ≤ k) => BitVec.getLsbD_of_ge b k h
  have hc := fun k (h : 8 ≤ k) => BitVec.getLsbD_of_ge c k h
  simp only [le32, word32, List.cons.injEq, and_true]
  refine ⟨?_, ?_, ?_, ?_⟩ <;> refine BitVec.eq_of_getLsbD_eq fun i hi => ?_ <;>
    simp only [BitVec.getLsbD_extractLsb', BitVec.getLsbD_or, BitVec.getLsbD_setWidth, BitVec.getLsbD_shiftLeft]
  · simp [hi, show i < 32 by omega, show i < 16 by omega, show i < 24 by omega]
  · simp [hi, show 8 + i < 32 by omega, show 8 + i < 16 by omega, show 8 + i < 24 by omega, show i < 32 by omega]
  · simp [hi, show 16 + i < 32 by omega, show ¬ 16 + i < 16 by omega, show 16 + i < 24 by omega,
      show 16 + i - 8 < 32 by omega, show i < 32 by omega, ha (16 + i) (by omega), hb (16 + i - 8) (by omega)]
  · simp [hi, show 24 + i < 32 by omega, show ¬ 24 + i < 16 by omega, show ¬ 24 + i < 24 by omega,
      show 24 + i - 8 < 32 by omega, show 24 + i - 16 < 32 by omega, show i < 32 by omega, ha (24 + i) (by omega),
      hb (24 + i - 8) (by omega), hc (24 + i - 16) (by omega)]

theorem le32_length (w : Word32) : (le32 w).length = 4 := rfl

theorem flatMap_le32_length (ws : List Word32) : (ws.flatMap le32).length = 4 * ws.length := by
  induction ws with
  | nil => rfl
  | cons w ws ih => simp only [List.flatMap_cons, List.length_append, ih, le32_length, List.length_cons]; omega

/-- Words written little-endian read back. -/
theorem words32_flatMap_le32 (ws : List Word32) : words32 (ws.flatMap le32) = ws := by
  induction ws with
  | nil => rfl
  | cons w ws ih =>
    rw [List.flatMap_cons, le32, List.cons_append, List.cons_append, List.cons_append, List.cons_append,
      List.nil_append, words32, ih, word32_le32]

/-- Whole groups of four bytes are the little-endian bytes of their words. -/
theorem flatMap_le32_words32 : ∀ (bytes : List Byte) (n : Nat), bytes.length = 4 * n →
    (words32 bytes).flatMap le32 = bytes ∧ (words32 bytes).length = n
  | [], n, h => by
    have : n = 0 := by simpa using h
    simp [words32, this]
  | [_], n, h | [_, _], n, h | [_, _, _], n, h => by simp at h; omega
  | a :: b :: c :: d :: rest, n, h => by
    obtain ⟨m, rfl⟩ : ∃ m, n = m + 1 := ⟨n - 1, by simp at h; omega⟩
    obtain ⟨h1, h2⟩ := flatMap_le32_words32 rest m (by simp at h ⊢; omega)
    simp [words32, h1, h2, le32_word32]

/-! ### The control byte (R72) -/

theorem isControlByte_wireControlByte : ∀ (k : IdKind) (b : Bool) (n : Nat), n ≤ 8 →
    isControlByte (wireControlByte k b n) = true := by
  intro k b n h
  interval_cases n <;> cases k <;> cases b <;> decide

theorem wireControlByte_ne : ∀ (k : IdKind) (b : Bool) (n : Nat), n ≤ 8 → wireControlByte k b n ≠ 0x55 := by
  intro k b n h
  interval_cases n <;> cases k <;> cases b <;> decide

theorem dlcField_wireControlByte : ∀ (k : IdKind) (b : Bool) (n : Nat), n ≤ 8 →
    (dlcField (wireControlByte k b n)).toNat = n := by
  intro k b n h
  interval_cases n <;> cases k <;> cases b <;> decide

theorem kindField_wireControlByte : ∀ (k : IdKind) (b : Bool) (n : Nat), n ≤ 8 →
    kindField (wireControlByte k b n) = k := by
  intro k b n h
  interval_cases n <;> cases k <;> cases b <;> decide

theorem bit4Field_wireControlByte : ∀ (k : IdKind) (b : Bool) (n : Nat), n ≤ 8 →
    bit4Field (wireControlByte k b n) = b := by
  intro k b n h
  interval_cases n <;> cases k <;> cases b <;> decide

/-- The control byte's fields by arithmetic. -/
theorem controlByte_fields : ∀ b : Byte, (isControlByte b = true ↔ 192 ≤ b.toNat) ∧ (dlcField b).toNat = b.toNat % 16 ∧
    kindField b = if b.toNat / 32 % 2 = 1 then .extended else .standard := by
  decide +kernel

/-- A control byte is put together again from its fields. -/
theorem wireControlByte_fields : ∀ c : Byte, isControlByte c = true → (dlcField c).toNat ≤ 8 →
    wireControlByte (kindField c) (bit4Field c) (dlcField c).toNat = c := by
  decide +kernel

/-! ### Host records -/

/-- The two descriptions of a host record agree: the check by lengths and conditions, and the decoder. -/
theorem recordWellFormed_iff (record : List Byte) :
    recordWellFormed record = true ↔ ∃ i, hostOperation record = .ok i := by
  cases record with
  | nil => simp [recordWellFormed, hostOperation]
  | cons op args =>
    simp only [recordWellFormed, hostOperation]
    split_ifs
    · rcases args with _ | ⟨b, _ | ⟨c, r⟩⟩ <;> simp
    · rcases args with _ | ⟨a, _ | ⟨b, _ | ⟨c, _ | ⟨d, _ | ⟨e, _ | ⟨f, r⟩⟩⟩⟩⟩⟩ <;> simp [hostEncFrame, kindOperand]
      split_ifs with h1 h2 h3 <;> simp_all [Except.map]
    · rcases args with _ | ⟨a, _ | ⟨b, _ | ⟨c, _ | ⟨d, _ | ⟨e, _ | ⟨f, _ | ⟨a, _ | ⟨b, _ | ⟨c, _ | ⟨d, _ | ⟨e, _ | ⟨f, r⟩⟩⟩⟩⟩⟩⟩⟩⟩⟩⟩⟩ <;>
        simp [hostEncConfig]
    · rcases args with _ | ⟨a, r⟩ <;> simp [hostEncFilter]
      split_ifs with h <;> simp; omega
      omega
    · rename_i h; simp [h]
    · rename_i h; simp; exact h
    · rcases args with _ | ⟨a, _ | ⟨b, r⟩⟩ <;> simp [hostInit]
      split_ifs with h <;> simp [h]
    · rename_i h; simp [h]
    · rename_i h; simp; exact h
    · simp

end Sys2Proof
end

