-- ==== Sys2Proof/Laws/Memory.lean ====
section
/-! SUPPORT. The receive buffer: read after write, a write leaves every other index alone, and every write keeps the
canonical form. -/

namespace Sys2Proof.Machine

@[simp] theorem Memory.find?_nil (a : Nat) : Memory.find? [] a = none := rfl

theorem Memory.find?_write (m : Memory) (a b : Nat) (v : Byte) :
    (Memory.write m a v).find? b = if b = a then some v else Memory.find? m b := by
  induction m with
  | nil => simp [Memory.write, Memory.find?]
  | cons c m ih =>
    obtain ⟨k, w⟩ := c
    rw [Memory.write]
    by_cases h1 : a < k
    · simp only [if_pos h1, Memory.find?]
    · by_cases h2 : a = k
      · subst h2; simp only [if_neg h1, if_true, Memory.find?]; split_ifs <;> rfl
      · simp only [if_neg h1, if_neg h2, Memory.find?, ih]
        by_cases h3 : b = k
        · rw [if_pos h3, if_pos h3, if_neg (by omega)]
        · rw [if_neg h3, if_neg h3]

@[simp] theorem Memory.wf_nil : Memory.wf [] := ⟨List.Pairwise.nil, by simp⟩

theorem Memory.find?_write_same (m : Memory) (a : Nat) (v : Byte) : (Memory.write m a v).find? a = some v := by
  simp [Memory.find?_write]

theorem Memory.mem_write (m : Memory) (a : Nat) (v : Byte) (c : Host.Cell) (h : c ∈ Memory.write m a v) :
    c = (a, v) ∨ c ∈ m := by
  induction m with
  | nil => simpa [Memory.write] using h
  | cons d m ih =>
    obtain ⟨k, w⟩ := d
    unfold Memory.write at h
    split_ifs at h with h1 h2
    · simpa using h
    · rcases List.mem_cons.1 h with h | h <;> simp [h]
    · rcases List.mem_cons.1 h with h | h
      · simp [h]
      · rcases ih h with h | h <;> simp [h]

theorem Memory.pairwise_write (m : Memory) (a : Nat) (v : Byte) (h : (m.map Prod.fst).Pairwise (· < ·)) :
    ((Memory.write m a v).map Prod.fst).Pairwise (· < ·) := by
  induction m with
  | nil => simp [Memory.write]
  | cons c m ih =>
    obtain ⟨k, w⟩ := c
    have hc := h
    rw [List.map_cons, List.pairwise_cons] at h
    unfold Memory.write
    split_ifs with h1 h2
    · rw [List.map_cons, List.pairwise_cons]
      refine ⟨fun x hx => ?_, hc⟩
      rcases List.mem_cons.1 hx with hx | hx
      · exact hx ▸ h1
      · exact lt_trans h1 (h.1 x hx)
    · subst h2; simpa using h
    · rw [List.map_cons, List.pairwise_cons]
      refine ⟨fun x hx => ?_, ih h.2⟩
      obtain ⟨c, hc, rfl⟩ := List.mem_map.1 hx
      rcases Memory.mem_write m a v c hc with rfl | hc
      · show k < a; omega
      · exact h.1 _ (List.mem_map_of_mem hc)

/-- Every memory operation keeps the canonical form. -/
theorem Memory.wf_write (m : Memory) (a : Nat) (v : Byte) (h : Memory.wf m) (ha : a < 20) :
    Memory.wf (Memory.write m a v) := by
  refine ⟨Memory.pairwise_write m a v h.1, fun c hc => ?_⟩
  rcases Memory.mem_write m a v c hc with rfl | hc
  · exact ha
  · exact h.2 c hc

/-- An address outside the buffer has no cell. -/
theorem Memory.find?_eq_none (m : Memory) (a : Nat) (h : ∀ c ∈ m, c.1 ≠ a) : Memory.find? m a = none := by
  induction m with
  | nil => rfl
  | cons c m ih =>
    have := h c (by simp)
    simp only [Memory.find?]
    rw [if_neg (fun e => this e.symm), ih fun d hd => h d (List.mem_cons_of_mem _ hd)]

/-- Reading after writing. -/
theorem RxBuffer.read_write (r : RxBuffer) (a b : Nat) (v : Byte) :
    RxBuffer.read { r with cells := r.cells.write a v } b = if b = a then v else r.read b := by
  simp only [RxBuffer.read, Memory.find?_write]
  split_ifs <;> simp

/-- What a store answers. -/
theorem Session.store_ok (ses : Session) (i : Nat) (b : Byte) (h : i < 20) :
    ses.store i b = .ok { ses with rxBuffer := { ses.rxBuffer with cells := ses.rxBuffer.cells.write i b } } :=
  if_pos h

theorem Session.store_error (ses : Session) (i : Nat) (b : Byte) (h : 20 ≤ i) : ses.store i b = .error .bufferBounds :=
  if_neg (by simpa using h)

theorem Session.store_cases {ses ses' : Session} {i : Nat} {b : Byte} (h : ses.store i b = .ok ses') :
    i < 20 ∧ ses' = { ses with rxBuffer := { ses.rxBuffer with cells := ses.rxBuffer.cells.write i b } } := by
  unfold Session.store at h
  split_ifs at h with hi
  exact ⟨hi, (Except.ok.inj h).symm⟩

/-- A slice is the bytes read one by one. -/
theorem RxBuffer.slice_eq (r : RxBuffer) (lo n : Nat) : r.slice lo n = (List.range n).map fun i => r.read (lo + i) := by
  rw [RxBuffer.slice, List.range'_eq_map_range, List.map_map]; rfl

@[simp] theorem RxBuffer.slice_length (r : RxBuffer) (lo n : Nat) : (r.slice lo n).length = n := by simp [RxBuffer.slice]

/-- Bytes that were all written do not depend on what unwritten bytes read as. -/
theorem RxBuffer.slice_epoch (r : RxBuffer) (e lo n : Nat)
    (h : ∀ i, lo ≤ i → i < lo + n → (r.cells.find? i).isSome = true) :
    RxBuffer.slice { r with epoch := e } lo n = r.slice lo n := by
  simp only [RxBuffer.slice]
  refine List.map_congr_left fun i hi => ?_
  obtain ⟨h1, h2⟩ := List.mem_range'_1.1 hi
  obtain ⟨v, hv⟩ := Option.isSome_iff_exists.1 (h i h1 h2)
  simp [RxBuffer.read, hv]

end Sys2Proof.Machine
end

