-- ==== Sys2Proof/Laws/State.lean ====
section
/-! SUPPORT. One lemma per field of State per update, so that no later proof unfolds an update. -/

namespace Sys2Proof.Machine

@[simp] theorem State.withSession_session (s : State) (ses : Session) : (s.withSession ses).session = ses := rfl
@[simp] theorem State.withSession_sinkCallInProgress (s : State) (ses : Session) : (s.withSession ses).sinkCallInProgress = s.sinkCallInProgress := rfl
@[simp] theorem State.withSession_overlapping (s : State) (ses : Session) : (s.withSession ses).overlapping = s.overlapping := rfl
@[simp] theorem State.withSession_trace (s : State) (ses : Session) : (s.withSession ses).trace = s.trace := rfl
@[simp] theorem State.withSession_returned (s : State) (ses : Session) : (s.withSession ses).returned = s.returned := rfl
@[simp] theorem State.withSession_input (s : State) (ses : Session) : (s.withSession ses).input = s.input := rfl
@[simp] theorem State.withSession_initAnswers (s : State) (ses : Session) : (s.withSession ses).initAnswers = s.initAnswers := rfl
@[simp] theorem State.withSession_byteSinkAnswers (s : State) (ses : Session) : (s.withSession ses).byteSinkAnswers = s.byteSinkAnswers := rfl
@[simp] theorem State.withSession_sinkConduct (s : State) (ses : Session) : (s.withSession ses).sinkConduct = s.sinkConduct := rfl
@[simp] theorem State.withSession_draws (s : State) (ses : Session) : (s.withSession ses).draws = s.draws := rfl

@[simp] theorem State.traced_session (s : State) (e : TraceEntry) : (s.traced e).session = s.session := rfl
@[simp] theorem State.traced_sinkCallInProgress (s : State) (e : TraceEntry) : (s.traced e).sinkCallInProgress = s.sinkCallInProgress := rfl
@[simp] theorem State.traced_overlapping (s : State) (e : TraceEntry) : (s.traced e).overlapping = s.overlapping := rfl
@[simp] theorem State.traced_trace (s : State) (e : TraceEntry) : (s.traced e).trace = s.trace ++ [e] := rfl
@[simp] theorem State.traced_returned (s : State) (e : TraceEntry) : (s.traced e).returned = s.returned := rfl
@[simp] theorem State.traced_input (s : State) (e : TraceEntry) : (s.traced e).input = s.input := rfl
@[simp] theorem State.traced_initAnswers (s : State) (e : TraceEntry) : (s.traced e).initAnswers = s.initAnswers := rfl
@[simp] theorem State.traced_byteSinkAnswers (s : State) (e : TraceEntry) : (s.traced e).byteSinkAnswers = s.byteSinkAnswers := rfl
@[simp] theorem State.traced_sinkConduct (s : State) (e : TraceEntry) : (s.traced e).sinkConduct = s.sinkConduct := rfl
@[simp] theorem State.traced_draws (s : State) (e : TraceEntry) : (s.traced e).draws = s.draws := rfl

@[simp] theorem State.returning_session (s : State) (r : Option Returned) : (s.returning r).session = s.session := rfl
@[simp] theorem State.returning_sinkCallInProgress (s : State) (r : Option Returned) : (s.returning r).sinkCallInProgress = s.sinkCallInProgress := rfl
@[simp] theorem State.returning_overlapping (s : State) (r : Option Returned) : (s.returning r).overlapping = s.overlapping := rfl
@[simp] theorem State.returning_trace (s : State) (r : Option Returned) : (s.returning r).trace = s.trace := rfl
@[simp] theorem State.returning_returned (s : State) (r : Option Returned) : (s.returning r).returned = r := rfl
@[simp] theorem State.returning_input (s : State) (r : Option Returned) : (s.returning r).input = s.input := rfl
@[simp] theorem State.returning_initAnswers (s : State) (r : Option Returned) : (s.returning r).initAnswers = s.initAnswers := rfl
@[simp] theorem State.returning_byteSinkAnswers (s : State) (r : Option Returned) : (s.returning r).byteSinkAnswers = s.byteSinkAnswers := rfl
@[simp] theorem State.returning_sinkConduct (s : State) (r : Option Returned) : (s.returning r).sinkConduct = s.sinkConduct := rfl
@[simp] theorem State.returning_draws (s : State) (r : Option Returned) : (s.returning r).draws = s.draws := rfl

@[simp] theorem State.encoderReturns_session (s : State) (r : EncResult) : (s.encoderReturns r).session = s.session := rfl
@[simp] theorem State.encoderReturns_sinkCallInProgress (s : State) (r : EncResult) : (s.encoderReturns r).sinkCallInProgress = s.sinkCallInProgress := rfl
@[simp] theorem State.encoderReturns_overlapping (s : State) (r : EncResult) : (s.encoderReturns r).overlapping = s.overlapping := rfl
@[simp] theorem State.encoderReturns_trace (s : State) (r : EncResult) : (s.encoderReturns r).trace = s.trace ++ [.result r] := rfl
@[simp] theorem State.encoderReturns_returned (s : State) (r : EncResult) : (s.encoderReturns r).returned = some (.encoder r) := rfl
@[simp] theorem State.encoderReturns_input (s : State) (r : EncResult) : (s.encoderReturns r).input = s.input := rfl
@[simp] theorem State.encoderReturns_initAnswers (s : State) (r : EncResult) : (s.encoderReturns r).initAnswers = s.initAnswers := rfl
@[simp] theorem State.encoderReturns_byteSinkAnswers (s : State) (r : EncResult) : (s.encoderReturns r).byteSinkAnswers = s.byteSinkAnswers := rfl
@[simp] theorem State.encoderReturns_sinkConduct (s : State) (r : EncResult) : (s.encoderReturns r).sinkConduct = s.sinkConduct := rfl
@[simp] theorem State.encoderReturns_draws (s : State) (r : EncResult) : (s.encoderReturns r).draws = s.draws := rfl

@[simp] theorem State.withSession_withSession (s : State) (a b : Session) :
    (s.withSession a).withSession b = s.withSession b := rfl

@[simp] theorem State.withSession_self (s : State) : s.withSession s.session = s := rfl

@[simp] theorem State.returning_encoderReturns (s : State) (r : Option Returned) (e : EncResult) :
    (s.returning r).encoderReturns e = s.encoderReturns e := rfl

end Sys2Proof.Machine
end

