-- ==== Sys2Proof/Laws/Ops.lean ====
section
/-! SUPPORT. One lemma per shared operation that says what it can do when it answers a next state. -/

namespace Sys2Proof.Machine

/-! ### Sequencing -/

@[simp] theorem andThen_next (s : State) (k : State → Out) : andThen (.next s) k = k s := rfl
@[simp] theorem andThen_fault (f : Fault) (k : State → Out) : andThen (.fault f) k = .fault f := rfl
@[simp] theorem andThen_refused (r : Refusal) (k : State → Out) : andThen (.refused r) k = .refused r := rfl

theorem andThen_eq_next {o : Out} {k : State → Out} {t : State} (h : andThen o k = .next t) :
    ∃ s, o = .next s ∧ k s = .next t := by
  cases o with
  | next s => exact ⟨s, rfl, h⟩
  | fault f => cases h
  | refused r => cases h

theorem andThen_assoc (o : Out) (k l : State → Out) : andThen (andThen o k) l = andThen o fun s => andThen (k s) l := by
  cases o <;> rfl

/-! ### The entry checks -/

/-- What an operation that passes its checks, or the encoder's null handle, gives. -/
theorem guarded_eq_next {c : OpClass} {s t : State} {body : State → Out} (h : guarded c s body = .next t) :
    s.overlapping = false ∧
    ((s.session.life = .absent ∧ c = .encoder ∧ t = s.encoderReturns .invalidArgument) ∨
     (s.sinkCallInProgress = false ∧ body (s.returning none) = .next t ∧
       ((c = .init ∧ s.session.life ≠ .live) ∨ (c ≠ .init ∧ s.session.life = .live)))) := by
  unfold guarded at h
  split_ifs at h with h1
  refine ⟨by simpa using h1, ?_⟩
  cases hl : s.session.life <;> cases c <;> simp_all [afterLifecycle] <;>
    first
    | exact h.symm
    | (split_ifs at h with h2; exact ⟨by simpa using h2, h⟩)

/-- An operation other than INIT starts in a ready state. -/
theorem guarded_ready {c : OpClass} {s : State} (body : State → Out) (h : s.Ready) (hc : c ≠ .init) :
    guarded c s body = body (s.returning none) := by
  obtain ⟨h1, h2, h3⟩ := h
  unfold guarded
  rw [if_neg (by simp [h2]), h1]
  cases c <;> simp_all [afterLifecycle]

/-- With a sink call in progress no operation starts: its body does not matter. -/
theorem guarded_inProgress {c : OpClass} {s : State} (body body' : State → Out) (h : s.sinkCallInProgress = true) :
    guarded c s body = guarded c s body' := by
  unfold guarded
  split_ifs
  · rfl
  · cases s.session.life <;> cases c <;> simp [afterLifecycle, h]

/-! ### Sink calls -/

/-- A sink that calls nothing back runs to completion. -/
theorem sinkCall_quiet {s : State} (h : s.NextSinkQuiet) :
    sinkCall s = .next { s with sinkCallInProgress := false, sinkConduct := s.sinkConduct.tail } := by
  simp only [sinkCall, show s.sinkConduct.headD (.valid []) = .valid [] from h, callBacks, andThen_next]

/-- No call back into a live Session gives a next state (R150). -/
theorem callBack_ne_next {record : List Byte} {s t : State} (hl : s.session.life = .live)
    (hp : s.sinkCallInProgress = true) : callBack record s ≠ .next t := by
  intro h
  unfold callBack at h
  split at h
  · cases h
  · obtain ⟨-, h | h⟩ := guarded_eq_next h
    · simp [hl] at h
    · simp [hp] at h

/-- A sink that is no longer valid ends the run (R244). -/
theorem sinkCall_gone {s : State} (h : s.sinkConduct.headD (.valid []) = .gone) : sinkCall s = .fault .invalidSink := by
  simp only [sinkCall, h]

/-- A valid sink that calls back ends the run at its first record: nothing behind that record matters (R150). -/
theorem sinkCall_callsBack {s : State} {record : List Byte} {calls : List (List Byte)} (hl : s.session.life = .live)
    (h : s.sinkConduct.headD (.valid []) = .valid (record :: calls)) :
    sinkCall s = callBack record { s with sinkCallInProgress := true, sinkConduct := s.sinkConduct.tail } := by
  simp only [sinkCall, h, callBacks, andThen_assoc]
  cases hc : callBack record { s with sinkCallInProgress := true, sinkConduct := s.sinkConduct.tail } with
  | next t => exact absurd hc (callBack_ne_next hl rfl)
  | fault f => rfl
  | refused r => rfl

/-- A sink call on a live Session that completes met a valid sink that called nothing back, and leaves everything but the
coming sinks' conduct as it was. -/
theorem sinkCall_eq_next {s t : State} (hl : s.session.life = .live) (h : sinkCall s = .next t) :
    s.NextSinkQuiet ∧
    t = { s with sinkCallInProgress := false, sinkConduct := s.sinkConduct.tail } := by
  match hc : s.sinkConduct.headD (.valid []) with
  | .valid [] =>
    rw [sinkCall_quiet hc] at h
    exact ⟨hc, (Host.Outcome.next.inj h).symm⟩
  | .valid (_ :: _) =>
    rw [sinkCall_callsBack hl hc] at h
    exact absurd h (callBack_ne_next (s := { s with sinkCallInProgress := true, sinkConduct := _ }) hl rfl)
  | .gone => rw [sinkCall_gone hc] at h; cases h

/-- What `emit` answers, when it answers a next state on a live Session. -/
theorem emit_eq_next {e : Event} {s t : State} (hl : s.session.life = .live) (h : emit e s = .next t) :
    (e.sinkPresent s.session = false ∧ t = s) ∨
    (e.sinkPresent s.session = true ∧ s.NextSinkQuiet ∧
      t = { s with
        sinkCallInProgress := false
        sinkConduct := s.sinkConduct.tail
        trace := s.trace ++ [e.entry] }) := by
  unfold emit at h
  split_ifs at h with hp
  · obtain ⟨u, h1, h2⟩ := andThen_eq_next h
    obtain ⟨hq, rfl⟩ := sinkCall_eq_next hl h1
    exact .inr ⟨hp, hq, (Host.Outcome.next.inj h2).symm⟩
  · exact .inl ⟨by simpa using hp, (Host.Outcome.next.inj h).symm⟩

/-- `emit` completes where the sink is absent or calls nothing back. -/
theorem emit_quiet {e : Event} {s : State} (h : s.NextSinkQuiet) :
    emit e s = .next (if e.sinkPresent s.session then
      { s with
        sinkCallInProgress := false
        sinkConduct := s.sinkConduct.tail
        trace := s.trace ++ [e.entry] } else s) := by
  unfold emit
  split_ifs
  · rw [sinkCall_quiet h]; rfl
  · rfl

/-- `sendBytes` completes where the sink is absent or calls nothing back. -/
theorem sendBytes_quiet {bytes : List Byte} {s : State} (h : s.NextSinkQuiet) :
    sendBytes bytes s = .next (if s.session.byteSinkPresent then
      ({ s with
        sinkCallInProgress := false
        sinkConduct := s.sinkConduct.tail
        byteSinkAnswers := s.byteSinkAnswers.tail
        draws := s.draws + 1
        trace := s.trace ++ [.sendBytes bytes (drawByteSink s).1] } : State).encoderReturns
          (SinkAnswer.toResult (drawByteSink s).1)
      else s.encoderReturns .ok) := by
  unfold sendBytes
  split_ifs
  · rw [sinkCall_quiet h]; rfl
  · rfl

/-- What `sendBytes` answers, when it answers a next state on a live Session. -/
theorem sendBytes_eq_next {bytes : List Byte} {s t : State} (hl : s.session.life = .live)
    (h : sendBytes bytes s = .next t) :
    (s.session.byteSinkPresent = false ∧ t = s.encoderReturns .ok) ∨
    (s.session.byteSinkPresent = true ∧ s.NextSinkQuiet ∧
      t = ({ s with
        sinkCallInProgress := false
        sinkConduct := s.sinkConduct.tail
        byteSinkAnswers := s.byteSinkAnswers.tail
        draws := s.draws + 1
        trace := s.trace ++ [.sendBytes bytes (drawByteSink s).1] } : State).encoderReturns
          (SinkAnswer.toResult (drawByteSink s).1)) := by
  by_cases hp : s.session.byteSinkPresent = true
  · have hq : s.NextSinkQuiet := by
      unfold sendBytes at h
      rw [if_pos hp] at h
      obtain ⟨u, h1, -⟩ := andThen_eq_next h
      exact (sinkCall_eq_next hl h1).1
    rw [sendBytes_quiet hq, if_pos hp] at h
    exact .inr ⟨hp, hq, (Host.Outcome.next.inj h).symm⟩
  · unfold sendBytes at h
    rw [if_neg hp] at h
    exact .inl ⟨by simpa using hp, (Host.Outcome.next.inj h).symm⟩

/-- What an encoder operation answers, when it answers a next state (R110). -/
theorem encoderOp_eq_next {valid : Bool} {bytes : List Byte} {s t : State} (h : encoderOp valid bytes s = .next t) :
    s.overlapping = false ∧
    ((s.session.life = .absent ∧ t = s.encoderReturns .invalidArgument) ∨
     (s.session.life = .live ∧ s.sinkCallInProgress = false ∧
      ((valid = false ∧ t = s.encoderReturns .invalidArgument) ∨
       (valid = true ∧ sendBytes bytes (s.returning none) = .next t)))) := by
  obtain ⟨ho, h | ⟨hp, h, hl⟩⟩ := guarded_eq_next h
  · exact ⟨ho, .inl ⟨h.1, h.2.2⟩⟩
  · refine ⟨ho, .inr ⟨by simpa using hl, hp, ?_⟩⟩
    cases valid
    · exact .inl ⟨rfl, by simpa using (Host.Outcome.next.inj h).symm⟩
    · exact .inr ⟨rfl, by simpa using h⟩

end Sys2Proof.Machine
end

