-- ==== Sys2Proof/Laws/Receive.lean ====
section
/-! SUPPORT. What one received byte can do, said once: what it leaves alone, that it keeps the invariant of R36, and
what FEED answers. -/

namespace Sys2Proof.Machine

/-! ### ResetMessage -/

@[simp] theorem Session.resetMessage_life (ses : Session) : ses.resetMessage.life = ses.life := rfl
@[simp] theorem Session.resetMessage_rxBuffer (ses : Session) : ses.resetMessage.rxBuffer = ses.rxBuffer := rfl
@[simp] theorem Session.resetMessage_detectState (ses : Session) : ses.resetMessage.detectState = .waitStart := rfl
@[simp] theorem Session.resetMessage_cursor (ses : Session) : ses.resetMessage.cursor = 0 := rfl
@[simp] theorem Session.resetMessage_pendingType (ses : Session) : ses.resetMessage.pendingType = .standard := rfl
@[simp] theorem Session.resetMessage_pendingDlc (ses : Session) : ses.resetMessage.pendingDlc = 0 := rfl
@[simp] theorem Session.resetMessage_pendingId (ses : Session) : ses.resetMessage.pendingId = .zero := rfl
@[simp] theorem Session.resetMessage_pendingRxErr (ses : Session) : ses.resetMessage.pendingRxErr = 0 := rfl
@[simp] theorem Session.resetMessage_pendingTxErr (ses : Session) : ses.resetMessage.pendingTxErr = 0 := rfl
@[simp] theorem Session.resetMessage_frameSink (ses : Session) :
    ses.resetMessage.frameSinkPresent = ses.frameSinkPresent := rfl
@[simp] theorem Session.resetMessage_statusSink (ses : Session) :
    ses.resetMessage.statusSinkPresent = ses.statusSinkPresent := rfl
@[simp] theorem Session.resetMessage_byteSink (ses : Session) :
    ses.resetMessage.byteSinkPresent = ses.byteSinkPresent := rfl

theorem Session.resetMessage_idle (ses : Session) : ses.resetMessage.Idle := ⟨rfl, rfl, rfl, rfl, rfl, rfl, rfl⟩

/-- A Session with no message in progress satisfies the table and what goes with it. -/
theorem Session.Idle.table {ses : Session} (h : ses.Idle) : ses.Table ∧ ses.Written ∧ ses.StdHighZero := by
  obtain ⟨h1, h2, h3, h4, h5, h6, h7⟩ := h
  refine ⟨?_, ?_, ?_⟩
  · refine ⟨fun _ => ⟨h2, h3, h4, h5, h6, h7⟩, ?_, ?_, ?_, ?_, ?_, ?_⟩ <;> simp [h1]
  · intro i hi; omega
  · exact fun _ => by simp [h5, IdBytes.zero]

/-! ### One equation per `detectState`

For a byte stored inside the buffer. `buf` names the buffer with the byte in it. -/

theorem receive_waitStart {ses : Session} (b : Byte) (hd : ses.detectState = .waitStart) :
    receive b ses = .ok (if b = 0xAA then
      { ses with
        rxBuffer := { ses.rxBuffer with cells := ses.rxBuffer.cells.write 0 b }
        cursor := 1
        detectState := .frameInfo } else ses, none) := by
  simp only [receive, hd, receiveWaitStart]
  split_ifs
  · rw [Session.store_ok _ _ _ (by omega)]; rfl
  · rfl

theorem receive_frameInfo {ses : Session} (b : Byte) (buf : RxBuffer) (hd : ses.detectState = .frameInfo)
    (hb : buf = { ses.rxBuffer with cells := ses.rxBuffer.cells.write 1 b }) :
    receive b ses = .ok
      (if b = 0x55 then { ses with rxBuffer := buf, cursor := 2, detectState := .controllerStatus }
       else if isControlByte b then
         if 8 < (dlcField b).toNat then Session.resetMessage { ses with rxBuffer := buf }
         else
           { ses with
             rxBuffer := buf
             cursor := 2
             pendingDlc := dlcField b
             pendingType := kindField b
             detectState := match kindField b with | .extended => .idExt | .standard => .idStd }
       else { ses with rxBuffer := buf, cursor := 1 }, none) := by
  have h0 : receive b ses = receiveFrameInfo b ses := by simp only [receive, hd]
  rw [h0]
  simp only [receiveFrameInfo, hb]
  rw [Session.store_ok _ _ _ (by omega)]
  simp only [Except.map]
  split_ifs <;> rfl

theorem receive_id {ses : Session} (b : Byte) (buf : RxBuffer) (full : Nat)
    (hd : ses.detectState = .idStd ∧ full = 4 ∨ ses.detectState = .idExt ∧ full = 6) (hc : ses.cursor < 20)
    (hb : buf = { ses.rxBuffer with cells := ses.rxBuffer.cells.write ses.cursor b }) :
    receive b ses = .ok
      ({ ses with
          rxBuffer := buf
          pendingId := ses.pendingId.setAtCursor ses.cursor b
          cursor := ses.cursor + 1
          detectState :=
            if ses.cursor + 1 = full then (if ses.pendingDlc = 0 then .eof else .data) else ses.detectState }, none) := by
  rcases hd with ⟨hd, rfl⟩ | ⟨hd, rfl⟩ <;>
    (simp only [receive, hd, receiveIdStd, receiveIdExt, receiveId, hb]
     rw [Session.store_ok _ _ _ hc]
     simp only [Except.map, hd])

theorem receive_data {ses : Session} (b : Byte) (buf : RxBuffer) (hd : ses.detectState = .data) (hc : ses.cursor < 20)
    (hb : buf = { ses.rxBuffer with cells := ses.rxBuffer.cells.write ses.cursor b }) :
    receive b ses = .ok
      ({ ses with
          rxBuffer := buf
          cursor := ses.cursor + 1
          detectState := if ses.cursor + 1 = ses.dataEnd then .eof else .data }, none) := by
  simp only [receive, hd, receiveData, hb]
  rw [Session.store_ok _ _ _ hc]
  simp only [Except.map, hd]
  rfl

/-- The frame of R149 is assembled from the buffer as the data left it: the terminator stands past the data. -/
theorem receive_eof {ses : Session} (b : Byte) (buf : RxBuffer) (f : Frame) (hd : ses.detectState = .eof)
    (hc : ses.cursor < 20) (he : ses.cursor = ses.dataEnd)
    (hb : buf = { ses.rxBuffer with cells := ses.rxBuffer.cells.write ses.cursor b })
    (hf : f = ⟨ses.pendingType, ses.pendingId.value, ses.pendingDlc.toNat,
      ses.rxBuffer.slice (dataOffset ses.pendingType) ses.pendingDlc.toNat⟩) :
    receive b ses = .ok (Session.resetMessage { ses with rxBuffer := buf },
      if b = 0x55 ∧ idInRange f.kind f.id = true then some (.frame f) else none) := by
  have he' : ses.cursor = dataOffset ses.pendingType + ses.pendingDlc.toNat := he
  have hs : RxBuffer.slice { ses.rxBuffer with cells := ses.rxBuffer.cells.write ses.cursor b }
      (dataOffset ses.pendingType) ses.pendingDlc.toNat =
      ses.rxBuffer.slice (dataOffset ses.pendingType) ses.pendingDlc.toNat := by
    rw [RxBuffer.slice_eq, RxBuffer.slice_eq]
    refine List.map_congr_left fun i hi => ?_
    have hi := List.mem_range.1 hi
    rw [RxBuffer.read_write, if_neg (by omega)]
  have h0 : receive b ses = receiveEof b ses := by simp only [receive, hd]
  rw [h0]
  simp only [receiveEof, hb]
  rw [Session.store_ok _ _ _ hc]
  simp only [Except.bind, Session.assembleFrame, Session.load]
  rw [if_pos (show dataOffset ses.pendingType + ses.pendingDlc.toNat ≤ 20 by omega), hs, hf]
  by_cases h : b = 0x55
  · simp only [h, if_true, true_and]; rfl
  · simp only [h, if_false, false_and]

theorem receive_controllerStatus {ses : Session} (b : Byte) (buf : RxBuffer) (hd : ses.detectState = .controllerStatus)
    (hc : ses.cursor < 20) (hb : buf = { ses.rxBuffer with cells := ses.rxBuffer.cells.write ses.cursor b }) :
    receive b ses = .ok
      (if ses.cursor = 19 then
        (Session.resetMessage { ses with rxBuffer := buf },
          if statusChecksumOk ses.rxBuffer b then some (.status ses.pendingTxErr ses.pendingRxErr) else none)
       else if ses.cursor = 2 ∧ b ≠ 0x04 then (Session.resetMessage { ses with rxBuffer := buf }, none)
       else
        ({ ses with
            rxBuffer := buf
            cursor := ses.cursor + 1
            pendingRxErr := if ses.cursor = 4 then b else ses.pendingRxErr
            pendingTxErr := if ses.cursor = 5 then b else ses.pendingTxErr }, none)) := by
  have hs (h : ses.cursor = 19) :
      RxBuffer.slice { ses.rxBuffer with cells := ses.rxBuffer.cells.write ses.cursor b } 2 17 = ses.rxBuffer.slice 2 17 := by
    rw [RxBuffer.slice_eq, RxBuffer.slice_eq]
    refine List.map_congr_left fun i hi => ?_
    have hi := List.mem_range.1 hi
    rw [RxBuffer.read_write, if_neg (by omega)]
  have h0 : receive b ses = receiveControllerStatus b ses := by simp only [receive, hd]
  rw [h0]
  simp only [receiveControllerStatus, hb]
  rw [Session.store_ok _ _ _ hc]
  simp only [Except.map, Nat.reduceEqDiff, Config.statusLen]
  by_cases h19 : ses.cursor = 19
  · have hs := hs h19
    simp only [statusChecksumOk, h19, Nat.reduceAdd, Nat.reduceEqDiff, false_and, if_false, if_true] at hs ⊢
    rw [hs]; rfl
  · by_cases h2 : ses.cursor = 2 ∧ b ≠ 0x04
    · simp only [h2.1, h2.2, Nat.reduceEqDiff, ne_eq, not_false_eq_true, and_self, if_true, if_false]; rfl
    · rw [if_neg (show ¬ (ses.cursor = 2 ∧ b ≠ Config.statusDisc) from h2), if_neg h19, if_neg h2]
      by_cases h4 : ses.cursor = 4
      · simp [h4]
      · by_cases h5 : ses.cursor = 5 <;> simp [h4, h5, h19]

/-! ### What a byte leaves alone -/

/-- The buffer index a FEED writes (R53). -/
def storeIndex (ses : Session) : Nat :=
  match ses.detectState with
  | .waitStart => 0
  | .frameInfo => 1
  | _ => ses.cursor

/-- The buffer after a byte: unchanged, or one byte written inside it. -/
def StoredAt (ses ses' : Session) (b : Byte) : Prop :=
  storeIndex ses < 20 ∧
    ses'.rxBuffer = { ses.rxBuffer with cells := ses.rxBuffer.cells.write (storeIndex ses) b }

/-- The fields no received byte writes, and what it does to the buffer. -/
theorem receive_frame {b : Byte} {ses ses' : Session} {ev : Option Event} (h : receive b ses = .ok (ses', ev)) :
    ses'.life = ses.life ∧ ses'.frameSinkPresent = ses.frameSinkPresent ∧
    ses'.statusSinkPresent = ses.statusSinkPresent ∧ ses'.byteSinkPresent = ses.byteSinkPresent ∧
    ((ses' = ses ∧ ses.detectState = .waitStart ∧ b ≠ 0xAA) ∨ StoredAt ses ses' b) := by
  by_cases hi : storeIndex ses < 20
  · cases hd : ses.detectState <;>
      simp only [receive, hd, receiveWaitStart, receiveFrameInfo, receiveIdStd, receiveIdExt, receiveId, receiveData,
        receiveEof, receiveControllerStatus] at h <;>
      simp only [storeIndex, hd] at hi
    · split_ifs at h with hb
      · rw [Session.store_ok _ _ _ (by omega)] at h
        obtain ⟨rfl, rfl⟩ := Prod.mk.inj (Except.ok.inj h)
        exact ⟨rfl, rfl, rfl, rfl, .inr ⟨by simp [storeIndex, hd], by simp [storeIndex, hd]⟩⟩
      · obtain ⟨rfl, rfl⟩ := Prod.mk.inj (Except.ok.inj h)
        exact ⟨rfl, rfl, rfl, rfl, .inl ⟨rfl, rfl, hb⟩⟩
    · rw [Session.store_ok _ _ _ (by omega)] at h
      simp only [Except.map] at h
      split_ifs at h <;> obtain ⟨rfl, rfl⟩ := Prod.mk.inj (Except.ok.inj h) <;>
        exact ⟨rfl, rfl, rfl, rfl, .inr ⟨by simp [storeIndex, hd], by simp [storeIndex, hd]⟩⟩
    · rw [Session.store_ok _ _ _ hi] at h
      obtain ⟨rfl, rfl⟩ := Prod.mk.inj (Except.ok.inj h)
      exact ⟨rfl, rfl, rfl, rfl, .inr ⟨by simpa [storeIndex, hd] using hi, by simp [storeIndex, hd]⟩⟩
    · rw [Session.store_ok _ _ _ hi] at h
      obtain ⟨rfl, rfl⟩ := Prod.mk.inj (Except.ok.inj h)
      exact ⟨rfl, rfl, rfl, rfl, .inr ⟨by simpa [storeIndex, hd] using hi, by simp [storeIndex, hd]⟩⟩
    · rw [Session.store_ok _ _ _ hi] at h
      obtain ⟨rfl, rfl⟩ := Prod.mk.inj (Except.ok.inj h)
      exact ⟨rfl, rfl, rfl, rfl, .inr ⟨by simpa [storeIndex, hd] using hi, by simp [storeIndex, hd]⟩⟩
    · rw [Session.store_ok _ _ _ hi] at h
      simp only [Except.bind, Session.assembleFrame, Session.load] at h
      split_ifs at h <;> first
        | (simp [Except.map] at h; done)
        | (obtain ⟨rfl, rfl⟩ := Prod.mk.inj (Except.ok.inj h)
           exact ⟨rfl, rfl, rfl, rfl, .inr ⟨by simpa [storeIndex, hd] using hi, by simp [storeIndex, hd]⟩⟩)
    · rw [Session.store_ok _ _ _ hi] at h
      simp only [Except.map] at h
      split_ifs at h <;> obtain ⟨rfl, rfl⟩ := Prod.mk.inj (Except.ok.inj h) <;>
        exact ⟨rfl, rfl, rfl, rfl, .inr ⟨by simpa [storeIndex, hd] using hi, by simp [storeIndex, hd]⟩⟩
  · have hc : 20 ≤ ses.cursor := by
      simp only [storeIndex] at hi; split at hi <;> omega
    cases hd : ses.detectState <;> simp [storeIndex, hd] at hi <;>
      simp [receive, hd, receiveIdStd, receiveIdExt, receiveId, receiveData, receiveEof, receiveControllerStatus,
        Session.store_error _ _ _ hc, Except.map, Except.bind] at h

/-- A byte received outside the first two states is stored at a cursor inside the buffer. -/
theorem receive_cursor_lt {b : Byte} {ses : Session} {r : Session × Option Event} (hd : ses.detectState ≠ .waitStart)
    (hd' : ses.detectState ≠ .frameInfo) (h : receive b ses = .ok r) : ses.cursor < 20 := by
  obtain ⟨-, -, -, -, ⟨-, h3, -⟩ | ⟨h2, -⟩⟩ := receive_frame h
  · exact absurd h3 hd
  · cases hc : ses.detectState <;> simp_all [storeIndex]

/-- What a byte in `Eof` can do, at any cursor. -/
theorem receive_eof_cases {b : Byte} {ses ses' : Session} {ev : Option Event} (hd : ses.detectState = .eof)
    (h : receive b ses = .ok (ses', ev)) :
    ses' = Session.resetMessage
      { ses with rxBuffer := { ses.rxBuffer with cells := ses.rxBuffer.cells.write ses.cursor b } } ∧
    (ev = none ∨ ∃ f, ev = some (.frame f) ∧ b = 0x55 ∧ f.kind = ses.pendingType ∧ f.id = ses.pendingId.value ∧
      f.dlc = ses.pendingDlc.toNat ∧ f.data.length = f.dlc ∧ idInRange f.kind f.id = true) := by
  have h0 : receive b ses = receiveEof b ses := by simp only [receive, hd]
  have hc := receive_cursor_lt (by simp [hd]) (by simp [hd]) h
  rw [h0, receiveEof, Session.store_ok _ _ _ hc] at h
  simp only [Except.bind, Session.assembleFrame, Session.load] at h
  split_ifs at h with h1 h2
  · simp only [Except.map, Except.ok.injEq, Prod.mk.injEq] at h
    obtain ⟨rfl, rfl⟩ := h
    refine ⟨rfl, ?_⟩
    split_ifs with hr
    · exact .inr ⟨_, rfl, h1, rfl, rfl, rfl, by simp, hr⟩
    · exact .inl rfl
  · simp [Except.map] at h
  · obtain ⟨rfl, rfl⟩ := Prod.mk.inj (Except.ok.inj h)
    exact ⟨rfl, .inl rfl⟩

/-! ### The invariant of R36 -/

/-- What a byte leaves of the written prefix. -/
theorem Session.Written.write {ses : Session} (h : ses.Written) (i : Nat) (b : Byte) (j : Nat)
    (hj : j < ses.cursor ∨ j = i) : ((ses.rxBuffer.cells.write i b).find? j).isSome = true := by
  rw [Memory.find?_write]
  split_ifs with he
  · rfl
  · exact h j (by omega)

/-- Every byte is received where the table of R36 holds, and the table and what goes with it hold again after it. -/
theorem receive_table (b : Byte) {ses : Session} (hm : Memory.wf ses.rxBuffer.cells) (ht : ses.Table) (hw : ses.Written)
    (hz : ses.StdHighZero) :
    ∃ ses' ev, receive b ses = .ok (ses', ev) ∧ Memory.wf ses'.rxBuffer.cells ∧ ses'.Table ∧ ses'.Written ∧
      ses'.StdHighZero := by
  obtain ⟨t1, t2, t3, t4, t5, t6, t7⟩ := ht
  have hd4 := ses.pendingDlc.isLt
  cases hd : ses.detectState with
  | waitStart =>
    obtain ⟨hc, hcl⟩ := t1 hd
    simp only [receive, hd, receiveWaitStart]
    split_ifs with hb
    · rw [Session.store_ok _ _ _ (by omega)]
      refine ⟨_, _, rfl, Memory.wf_write _ _ _ hm (by omega), ?_, ?_, hz⟩
      · refine ⟨by simp, fun _ => ⟨rfl, ?_, hcl⟩, by simp, by simp, by simp, by simp, by simp⟩
        rw [RxBuffer.read_write, if_pos rfl, hb]
      · intro i hi; exact hw.write 0 b i (by simp at hi; omega)
    · exact ⟨_, _, rfl, hm, ⟨t1, t2, t3, t4, t5, t6, t7⟩, hw, hz⟩
  | frameInfo =>
    obtain ⟨hc, h0, hcl⟩ := t2 hd
    have hcl' := hcl
    obtain ⟨c1, c2, c3, c4, c5⟩ := hcl'
    have hm' := Memory.wf_write ses.rxBuffer.cells 1 b hm (by omega)
    have hw' : ∀ i < 2, ((ses.rxBuffer.cells.write 1 b).find? i).isSome = true := fun i hi => hw.write 1 b i (by omega)
    simp only [receive, hd, receiveFrameInfo]
    rw [Session.store_ok _ _ _ (by omega)]
    simp only [Except.map]
    split_ifs with h1 h2 h3
    · refine ⟨_, _, rfl, hm', ?_, hw', hz⟩
      refine ⟨by simp, by simp, by simp, by simp, by simp, by simp, fun _ => ⟨le_refl 2, by show 2 ≤ 19; omega, c1, c2, c3⟩⟩
    · exact ⟨_, _, rfl, hm', (Session.resetMessage_idle _).table⟩
    · refine ⟨_, _, rfl, hm', ?_, hw', fun _ => by simp [c3, IdBytes.zero]⟩
      have h3' : (dlcField b).toNat ≤ 8 := by simpa using h3
      cases hk : kindField b
      · refine ⟨by simp, by simp, fun _ => ⟨.inl rfl, rfl, h3'⟩, by simp, by simp, by simp, by simp⟩
      · refine ⟨by simp, by simp, by simp, fun _ => ⟨le_refl 2, by show 2 ≤ 5; omega, rfl, h3'⟩, by simp, by simp, by simp⟩
    · refine ⟨_, _, rfl, hm', ?_, fun i hi => hw' i (by simp at hi; omega), hz⟩
      refine ⟨by simp [hd], fun _ => ⟨rfl, ?_, hcl⟩, by simp [hd], by simp [hd], by simp [hd], by simp [hd], by simp [hd]⟩
      rw [RxBuffer.read_write, if_neg (by omega)]; exact h0
  | idStd =>
    obtain ⟨hc, hk, hl⟩ := t3 hd
    have hlt : ses.cursor < 20 := by omega
    simp only [receive, hd, receiveIdStd, receiveId]
    rw [Session.store_ok _ _ _ hlt]
    refine ⟨_, _, rfl, Memory.wf_write _ _ _ hm hlt, ?_,
      fun i hi => hw.write ses.cursor b i (by simp at hi; omega), ?_⟩
    · by_cases h0 : ses.pendingDlc = 0
      · rcases hc with hc | hc
        · simp [Session.Table, hc, hd, hk, hl]
        · simp [Session.Table, hc, hk, h0, Session.dataEnd, dataOffset]
      · have : ses.pendingDlc.toNat ≠ 0 := fun h => h0 (BitVec.eq_of_toNat_eq (by simpa using h))
        rcases hc with hc | hc
        · simp [Session.Table, hc, hd, hk, hl]
        · simp [Session.Table, hc, hk, hl, show ¬ ses.pendingDlc = 0#4 from h0, Session.dataEnd, dataOffset]; omega
    · intro _
      obtain ⟨z2, z3⟩ := hz hk
      rcases hc with hc | hc <;> simp [hc, IdBytes.setAtCursor, z2, z3]
  | idExt =>
    obtain ⟨hc, hc', hk, hl⟩ := t4 hd
    have hlt : ses.cursor < 20 := by omega
    simp only [receive, hd, receiveIdExt, receiveId]
    rw [Session.store_ok _ _ _ hlt]
    refine ⟨_, _, rfl, Memory.wf_write _ _ _ hm hlt, ?_,
      fun i hi => hw.write ses.cursor b i (by simp at hi; omega), ?_⟩
    · by_cases h5 : ses.cursor = 5
      · by_cases h0 : ses.pendingDlc = 0
        · simp [Session.Table, h5, hk, h0, Session.dataEnd, dataOffset]
        · have : ses.pendingDlc.toNat ≠ 0 := fun h => h0 (BitVec.eq_of_toNat_eq (by simpa using h))
          simp [Session.Table, h5, hk, hl, show ¬ ses.pendingDlc = 0#4 from h0, Session.dataEnd, dataOffset]; omega
      · simp [Session.Table, h5, hd, hk, hl]; omega
    · intro h; simp [hk] at h
  | data =>
    obtain ⟨hc, hc', hl⟩ := t5 hd
    have hoff : dataOffset ses.pendingType ≤ 6 := by cases ses.pendingType <;> simp [dataOffset]
    have hend : ses.dataEnd = dataOffset ses.pendingType + ses.pendingDlc.toNat := rfl
    have hlt : ses.cursor < 20 := by omega
    simp only [receive, hd, receiveData]
    rw [Session.store_ok _ _ _ hlt]
    refine ⟨_, _, rfl, Memory.wf_write _ _ _ hm hlt, ?_,
      fun i hi => hw.write ses.cursor b i (by simp at hi; omega), hz⟩
    by_cases he : ses.cursor + 1 = ses.dataEnd
    · have he' : ses.cursor + 1 = dataOffset ses.pendingType + ses.pendingDlc.toNat := he
      simp [Session.Table, Session.dataEnd, he', hl]; omega
    · have he' : ¬ ses.cursor + 1 = dataOffset ses.pendingType + ses.pendingDlc.toNat := he
      simp [Session.Table, hd, Session.dataEnd, he', hl]; omega
  | eof =>
    obtain ⟨hc, hc', hl⟩ := t6 hd
    have hoff : dataOffset ses.pendingType ≤ 6 := by cases ses.pendingType <;> simp [dataOffset]
    have hlt : ses.cursor < 20 := by omega
    have hm' := Memory.wf_write ses.rxBuffer.cells ses.cursor b hm hlt
    simp only [receive, hd, receiveEof]
    rw [Session.store_ok _ _ _ hlt]
    simp only [Except.bind, Session.assembleFrame, Session.load]
    rw [if_pos (show dataOffset ses.pendingType + ses.pendingDlc.toNat ≤ 20 by omega)]
    simp only [Except.map]
    split_ifs <;> exact ⟨_, _, rfl, hm', (Session.resetMessage_idle _).table⟩
  | controllerStatus =>
    obtain ⟨hc, hc', hk, h0, hid⟩ := t7 hd
    have hlt : ses.cursor < 20 := by omega
    have hm' := Memory.wf_write ses.rxBuffer.cells ses.cursor b hm hlt
    have hw' : ∀ i < ses.cursor + 1, ((ses.rxBuffer.cells.write ses.cursor b).find? i).isSome = true :=
      fun i hi => hw.write ses.cursor b i (by omega)
    simp only [receive, hd, receiveControllerStatus]
    rw [Session.store_ok _ _ _ hlt]
    simp only [Except.map]
    split_ifs with h1 h2 h3 h4 h5 h6 h7 <;>
      first
      | exact ⟨_, _, rfl, hm', (Session.resetMessage_idle _).table⟩
      | (refine ⟨_, _, rfl, hm', ?_, hw', hz⟩
         refine ⟨by simp [hd], by simp [hd], by simp [hd], by simp [hd], by simp [hd], by simp [hd],
           fun _ => ⟨by show 2 ≤ ses.cursor + 1; omega, ?_, hk, h0, hid⟩⟩
         simp [Config.statusLen] at *; omega)

/-! ### FEED -/

/-- FEED in a ready state is its body. -/
theorem feedByte_ready {b : Byte} {s : State} (h : s.Ready) : feedByte b s = feedBody b (s.returning none) :=
  guarded_ready _ h (by decide)

/-- What FEED answers, when it answers a next state. -/
theorem feedByte_eq_next {b : Byte} {s t : State} (h : feedByte b s = .next t) :
    s.Ready ∧ ∃ ses' ev, receive b s.session = .ok (ses', ev) ∧
      ((∀ e, ev = some e → e.sinkPresent s.session = false) ∧ t = (s.returning none).withSession ses' ∨
       ∃ e, ev = some e ∧ e.sinkPresent s.session = true ∧ s.NextSinkQuiet ∧
         t = { s with
           session := ses'
           returned := none
           sinkCallInProgress := false
           sinkConduct := s.sinkConduct.tail
           trace := s.trace ++ [e.entry] }) := by
  obtain ⟨ho, h | ⟨hp, h, hl⟩⟩ := guarded_eq_next h
  · simp at h
  have hl : s.session.life = .live := by simpa using hl
  refine ⟨⟨hl, ho, hp⟩, ?_⟩
  unfold feedBody at h
  cases hr : receive b s.session with
  | error f => simp [hr] at h
  | ok r =>
    obtain ⟨ses', ev⟩ := r
    simp only [State.returning_session, hr] at h
    refine ⟨ses', ev, rfl, ?_⟩
    cases ev with
    | none => exact .inl ⟨by simp, (Host.Outcome.next.inj h).symm⟩
    | some e =>
      obtain ⟨u, h1, h2⟩ := andThen_eq_next h
      obtain ⟨hp', rfl⟩ | ⟨hp', hq, rfl⟩ := emit_eq_next (by simpa using hl) h1
      · refine .inl ⟨fun e' he => ?_, (Host.Outcome.next.inj h2).symm⟩
        cases he; exact hp'
      · exact .inr ⟨e, rfl, hp', hq, (Host.Outcome.next.inj h2).symm⟩

/-- FEED completes where the byte is received and the next sink call calls nothing back. -/
theorem feedByte_quiet {b : Byte} {s : State} {ses' : Session} {ev : Option Event} (h : s.Ready)
    (hr : receive b s.session = .ok (ses', ev)) (hq : s.NextSinkQuiet ∨ ev = none) :
    feedByte b s = .next (match ev with
      | none => (s.returning none).withSession ses'
      | some e => if e.sinkPresent s.session then
          { s with
            session := ses'
            returned := none
            sinkCallInProgress := false
            sinkConduct := s.sinkConduct.tail
            trace := s.trace ++ [e.entry] }
        else (s.returning none).withSession ses') := by
  rw [feedByte_ready h, feedBody]
  simp only [State.returning_session, hr]
  cases ev with
  | none => rfl
  | some e =>
    have hq : (s.returning none).NextSinkQuiet := by simpa [State.NextSinkQuiet] using hq
    simp only [deliver, emit]
    by_cases hp : e.sinkPresent s.session = true
    · rw [if_pos hp, if_pos (show e.sinkPresent (s.returning none).session = true from hp), sinkCall_quiet hq]; rfl
    · rw [if_neg hp, if_neg (show ¬ e.sinkPresent (s.returning none).session = true from hp)]; rfl

/-- FEED of a byte that completes no event is its effect on the Session. -/
theorem feedByte_none {b : Byte} {s : State} {ses' : Session} (h : s.Ready) (hr : receive b s.session = .ok (ses', none)) :
    feedByte b s = .next { s with returned := none, session := ses' } :=
  feedByte_quiet h hr (.inr rfl)

/-- FEED of a byte that completes an event: with the sink absent, and with a sink that calls nothing back. -/
theorem feedByte_some {b : Byte} {s : State} {ses' : Session} {e : Event} (h : s.Ready)
    (hr : receive b s.session = .ok (ses', some e)) :
    (e.sinkPresent s.session = false → feedByte b s = .next { s with returned := none, session := ses' }) ∧
    (e.sinkPresent s.session = true → s.NextSinkQuiet → feedByte b s = .next { s with
      returned := none, session := ses', trace := s.trace ++ [e.entry], sinkConduct := s.sinkConduct.tail }) := by
  constructor
  · intro hs
    rw [feedByte_ready h, feedBody, State.returning_session, hr]
    simp only [deliver, emit]
    rw [if_neg (by simpa using hs)]; rfl
  · intro hs hq
    have h' := feedByte_quiet h hr (.inl hq)
    rw [h']
    simp only [hs, if_true]
    rw [← h.2.2]

theorem feedBytes_cons (b : Byte) (bytes : List Byte) (s : State) :
    feedBytes (b :: bytes) s = andThen (feedByte b s) (feedBytes bytes) := rfl

/-- FEEDS of one run after another (R92). -/
theorem feedBytes_append (as bs : List Byte) (s : State) :
    feedBytes (as ++ bs) s = andThen (feedBytes as s) (feedBytes bs) := by
  induction as generalizing s with
  | nil => rfl
  | cons a as ih =>
    rw [List.cons_append, feedBytes_cons, feedBytes_cons, andThen_assoc]
    congr 1
    exact funext ih

end Sys2Proof.Machine
end

