-- ==== Sys2Proof/Laws/Messages.lean ====
section
/-! SUPPORT. Runs of FEEDs that complete no event: how a message fills the buffer, field by field. A run is stated on
the Session alone (`SilentRun`) and carried over to the machine once (`SilentRun.feedBytes`). -/

namespace Sys2Proof.Machine

/-! ### Bytes written one after another -/

/-- The buffer with bytes written from index `i` on. -/
def RxBuffer.writeAll (r : RxBuffer) : Nat → List Byte → RxBuffer
  | _, [] => r
  | i, b :: bs => RxBuffer.writeAll { r with cells := r.cells.write i b } (i + 1) bs

theorem RxBuffer.read_writeAll (bs : List Byte) : ∀ (r : RxBuffer) (i j : Nat),
    (r.writeAll i bs).read j = if h : i ≤ j ∧ j < i + bs.length then bs[j - i]'(by omega) else r.read j := by
  induction bs with
  | nil => intro r i j; simp [writeAll]
  | cons b bs ih =>
    intro r i j
    rw [writeAll, ih]
    by_cases h1 : j = i
    · subst h1; simp [RxBuffer.read_write]
    · by_cases h2 : i ≤ j ∧ j < i + (bs.length + 1)
      · rw [dif_pos (by omega), dif_pos (by simpa using h2)]
        have : j - i = (j - (i + 1)) + 1 := by omega
        simp only [this, List.getElem_cons_succ]
      · rw [dif_neg (by omega), dif_neg (by simpa using h2), RxBuffer.read_write, if_neg h1]

theorem RxBuffer.writeAll_append (xs ys : List Byte) : ∀ (r : RxBuffer) (i : Nat),
    r.writeAll i (xs ++ ys) = (r.writeAll i xs).writeAll (i + xs.length) ys := by
  induction xs with
  | nil => intro r i; rfl
  | cons x xs ih =>
    intro r i
    simp only [List.cons_append, writeAll, ih, List.length_cons]
    congr 1; omega

/-- A field in the middle reads back as a slice. -/
theorem RxBuffer.slice_writeAll (r : RxBuffer) (i : Nat) (bs cs ds : List Byte) :
    (r.writeAll i (bs ++ cs ++ ds)).slice (i + bs.length) cs.length = cs := by
  rw [RxBuffer.slice_eq]
  apply List.ext_getElem
  · simp
  · intro k h1 h2
    simp only [List.getElem_map, List.getElem_range]
    rw [read_writeAll, dif_pos (by simp; omega), List.getElem_append_left (by simp; omega),
      List.getElem_append_right (by omega)]
    congr 1; omega

/-- From index 0: each index holds its byte, and those past the bytes are as before. -/
theorem RxBuffer.read_writeAll_zero (r : RxBuffer) (bs : List Byte) (a : Nat) :
    (r.writeAll 0 bs).read a = bs.getD a (r.read a) := by
  rw [read_writeAll]
  by_cases h : a < bs.length
  · rw [dif_pos (by omega)]; simp [List.getD_eq_getElem?_getD, List.getElem?_eq_getElem h]
  · rw [dif_neg (by omega)]
    simp [List.getD_eq_getElem?_getD, List.getElem?_eq_none (show bs.length ≤ a by omega)]

/-! ### Runs without an event -/

/-- The bytes take the Session from one value to another and complete no event. -/
inductive SilentRun : List Byte → Session → Session → Prop
  | nil (ses : Session) : SilentRun [] ses ses
  | cons {b : Byte} {bs : List Byte} {ses ses1 ses2 : Session} :
      receive b ses = .ok (ses1, none) → SilentRun bs ses1 ses2 → SilentRun (b :: bs) ses ses2

theorem SilentRun.append {xs ys : List Byte} {a b c : Session} (h : SilentRun xs a b) (h' : SilentRun ys b c) :
    SilentRun (xs ++ ys) a c := by
  induction h with
  | nil => exact h'
  | cons h _ ih => exact .cons h (ih h')

/-- A silent run of at least one byte, as FEEDs. -/
theorem SilentRun.feedBytes {bs : List Byte} {ses ses' : Session} (h : SilentRun bs ses ses') :
    ∀ {s : State}, s.Ready → s.session = ses → (s.returned = none ∨ bs ≠ []) →
      feedBytes bs s = .next { s with returned := none, session := ses' } ∧ ses'.life = .live := by
  induction h with
  | nil =>
    intro s hr hs hn; subst hs
    rcases hn with hn | hn
    · exact ⟨by rw [← hn]; rfl, hr.1⟩
    · exact absurd rfl hn
  | cons h _ ih =>
    intro s hr hs _
    subst hs
    rw [feedBytes_cons, feedByte_none hr h]
    exact ih (s := { s with returned := none, session := _ }) ⟨(receive_frame h).1.trans hr.1, hr.2⟩ rfl (.inl rfl)

/-! ### The fields of a data frame -/

/-- The start byte and a control byte with a legal DLC. -/
theorem silentRun_header (ses : Session) (h : ses.Idle) (c : Byte) (hc : isControlByte c = true) (h5 : c ≠ 0x55)
    (h8 : (dlcField c).toNat ≤ 8) :
    SilentRun [0xAA, c] ses
      { ses with
        rxBuffer := ses.rxBuffer.writeAll 0 [0xAA, c]
        cursor := 2
        pendingDlc := dlcField c
        pendingType := kindField c
        detectState := match kindField c with | .extended => .idExt | .standard => .idStd } := by
  have h1 := receive_waitStart 0xAA h.1
  rw [if_pos rfl] at h1
  have h2 := receive_frameInfo (ses :=
    { ses with
      rxBuffer := { ses.rxBuffer with cells := ses.rxBuffer.cells.write 0 0xAA }
      cursor := 1
      detectState := .frameInfo }) c _ rfl rfl
  rw [if_neg h5, if_pos hc, if_neg (by omega)] at h2
  exact .cons h1 (.cons h2 (.nil _))

/-- How many identifier bytes a kind has. -/
def idLength : IdKind → Nat
  | .standard => 2
  | .extended => 4

/-- The identifier bytes recorded over those there. -/
def IdBytes.record (p : IdBytes) : List Byte → IdBytes
  | [a, b] => { p with id0 := a, id1 := b }
  | [a, b, c, d] => ⟨a, b, c, d⟩
  | _ => p

/-- The identifier bytes. -/
theorem silentRun_id (ses : Session) (k : IdKind) (ids : List Byte)
    (hd : ses.detectState = match k with | .extended => .idExt | .standard => .idStd) (hc : ses.cursor = 2)
    (hl : ids.length = idLength k) :
    SilentRun ids ses
      { ses with
        rxBuffer := ses.rxBuffer.writeAll 2 ids
        cursor := dataOffset k
        detectState := if ses.pendingDlc = 0 then .eof else .data
        pendingId := ses.pendingId.record ids } := by
  cases k with
  | standard =>
    rcases ids with _ | ⟨a, _ | ⟨b, _ | ⟨c, t⟩⟩⟩ <;> simp [idLength] at hl
    refine .cons (receive_id a _ 4 (.inl ⟨hd, rfl⟩) (by omega) rfl) ?_
    rw [if_neg (by omega)]
    refine .cons (receive_id b _ 4 (.inl ⟨hd, rfl⟩) (by show ses.cursor + 1 < 20; omega) rfl) ?_
    simp [hc, IdBytes.setAtCursor, RxBuffer.writeAll, dataOffset, IdBytes.record]
    exact .nil _
  | extended =>
    rcases ids with _ | ⟨a, _ | ⟨b, _ | ⟨c, _ | ⟨d, _ | ⟨e, t⟩⟩⟩⟩⟩ <;> simp [idLength] at hl
    refine .cons (receive_id a _ 6 (.inr ⟨hd, rfl⟩) (by omega) rfl) ?_
    rw [if_neg (by omega)]
    refine .cons (receive_id b _ 6 (.inr ⟨hd, rfl⟩) (by show ses.cursor + 1 < 20; omega) rfl) ?_
    rw [if_neg (by dsimp only; omega)]
    refine .cons (receive_id c _ 6 (.inr ⟨hd, rfl⟩) (by show ses.cursor + 1 + 1 < 20; omega) rfl) ?_
    rw [if_neg (by dsimp only; omega)]
    refine .cons (receive_id d _ 6 (.inr ⟨hd, rfl⟩) (by show ses.cursor + 1 + 1 + 1 < 20; omega) rfl) ?_
    simp [hc, IdBytes.setAtCursor, RxBuffer.writeAll, dataOffset, IdBytes.record]
    exact .nil _

/-- The data bytes, all that are left of them. -/
theorem silentRun_data (bs : List Byte) : ∀ ses : Session, ses.detectState = .data → bs ≠ [] →
    ses.cursor + bs.length = ses.dataEnd → ses.dataEnd ≤ 14 →
    SilentRun bs ses
      { ses with rxBuffer := ses.rxBuffer.writeAll ses.cursor bs, cursor := ses.dataEnd, detectState := .eof } := by
  induction bs with
  | nil => intro ses _ h; exact absurd rfl h
  | cons b bs ih =>
    intro ses hd _ he h14
    simp only [List.length_cons] at he
    refine .cons (receive_data b _ hd (by omega) rfl) ?_
    by_cases hb : bs = []
    · subst hb
      have : ses.cursor + 1 = ses.dataEnd := by simpa using he
      rw [if_pos this, this]
      exact .nil _
    · have hl : 0 < bs.length := List.length_pos_iff.2 hb
      rw [if_neg (show ¬ ses.cursor + 1 = ses.dataEnd by omega)]
      exact ih _ rfl hb (by show ses.cursor + 1 + bs.length = ses.dataEnd; omega) h14

/-- A data frame but for its terminator. -/
theorem silentRun_frame (ses : Session) (h : ses.Idle) (k : IdKind) (bit4 : Bool) (ids data : List Byte)
    (h8 : data.length ≤ 8) (hl : ids.length = idLength k) :
    SilentRun ([0xAA, wireControlByte k bit4 data.length] ++ ids ++ data) ses
      { ses with
        rxBuffer := ses.rxBuffer.writeAll 0 ([0xAA, wireControlByte k bit4 data.length] ++ ids ++ data)
        cursor := dataOffset k + data.length
        pendingDlc := dlcField (wireControlByte k bit4 data.length)
        pendingType := k
        detectState := .eof
        pendingId := IdBytes.zero.record ids } := by
  have e1 := dlcField_wireControlByte k bit4 _ h8
  have e2 := kindField_wireControlByte k bit4 _ h8
  have r1 := silentRun_header ses h _ (isControlByte_wireControlByte k bit4 _ h8) (wireControlByte_ne k bit4 _ h8)
    (by rw [e1]; exact h8)
  rw [e2] at r1
  have r12 := r1.append (silentRun_id _ k ids rfl rfl hl)
  have hw := RxBuffer.writeAll_append [0xAA, wireControlByte k bit4 data.length] ids ses.rxBuffer 0
  rw [show 0 + [0xAA, wireControlByte k bit4 data.length].length = 2 from rfl] at hw
  rw [show ses.pendingId = .zero from h.2.2.2.2.1, ← hw] at r12
  dsimp only at r12
  by_cases hd : data = []
  · subst hd
    rw [if_pos (BitVec.eq_of_toNat_eq (by simpa using e1))] at r12
    simpa using r12
  · have hne : ¬ dlcField (wireControlByte k bit4 data.length) = 0 := fun h0 => by
      rw [h0] at e1; exact hd (List.length_eq_zero_iff.1 (by simpa using e1.symm))
    rw [if_neg hne] at r12
    have hend : ∀ ses : Session, ses.pendingType = k →
        ses.pendingDlc = dlcField (wireControlByte k bit4 data.length) → ses.dataEnd = dataOffset k + data.length := by
      intro ses h1 h2; rw [Session.dataEnd, h1, h2, e1]
    have := r12.append (silentRun_data data _ rfl hd (by rw [hend _ rfl rfl])
      (by rw [hend _ rfl rfl]; cases k <;> simp [dataOffset] <;> omega))
    rw [hend _ rfl rfl] at this
    dsimp only at this
    have hw := RxBuffer.writeAll_append ([0xAA, wireControlByte k bit4 data.length] ++ ids) data ses.rxBuffer 0
    rw [show 0 + ([0xAA, wireControlByte k bit4 data.length] ++ ids).length = dataOffset k by
      cases k <;> simp [hl, idLength, dataOffset]] at hw
    rw [← hw] at this
    exact this

/-! ### The fields of a status report -/

/-- The first two bytes of the status path. -/
theorem silentRun_statusHeader (ses : Session) (h : ses.Idle) :
    SilentRun [0xAA, 0x55] ses
      { ses with rxBuffer := ses.rxBuffer.writeAll 0 [0xAA, 0x55], cursor := 2, detectState := .controllerStatus } := by
  have h1 := receive_waitStart 0xAA h.1
  rw [if_pos rfl] at h1
  have h2 := receive_frameInfo (ses :=
    { ses with
      rxBuffer := { ses.rxBuffer with cells := ses.rxBuffer.cells.write 0 0xAA }
      cursor := 1
      detectState := .frameInfo }) 0x55 _ rfl rfl
  rw [if_pos rfl] at h2
  exact .cons h1 (.cons h2 (.nil _))

/-- One byte of a status report before its checksum, with the right discriminator. -/
theorem receive_statusByte (ses : Session) (b : Byte) (n : Nat) (hd : ses.detectState = .controllerStatus)
    (hc : ses.cursor = n) (h : n < 19) (h2 : n = 2 → b = 4) :
    receive b ses = .ok
      ({ ses with
          rxBuffer := { ses.rxBuffer with cells := ses.rxBuffer.cells.write n b }
          cursor := n + 1
          pendingRxErr := if n = 4 then b else ses.pendingRxErr
          pendingTxErr := if n = 5 then b else ses.pendingTxErr }, none) := by
  subst hc
  rw [receive_controllerStatus b _ hd (by omega) rfl, if_neg (by omega), if_neg]
  rintro ⟨h3, h4⟩; exact h4 (h2 h3)

/-- Reserved bytes of a status report. -/
theorem silentRun_reserved (bs : List Byte) : ∀ ses : Session, ses.detectState = .controllerStatus → 6 ≤ ses.cursor →
    ses.cursor + bs.length ≤ 19 →
    SilentRun bs ses { ses with rxBuffer := ses.rxBuffer.writeAll ses.cursor bs, cursor := ses.cursor + bs.length } := by
  induction bs with
  | nil => intro ses _ _ _; exact .nil _
  | cons b bs ih =>
    intro ses hd h6 h19
    simp only [List.length_cons] at h19
    have h1 := receive_statusByte ses b _ hd rfl (by omega) (by omega)
    rw [if_neg (by omega), if_neg (by omega)] at h1
    refine .cons h1 ?_
    have := ih { ses with
      rxBuffer := { ses.rxBuffer with cells := ses.rxBuffer.cells.write ses.cursor b }
      cursor := ses.cursor + 1 } hd (by dsimp only; omega) (by dsimp only; omega)
    dsimp only at this
    simp only [List.length_cons, RxBuffer.writeAll]
    rw [show ses.cursor + (bs.length + 1) = ses.cursor + 1 + bs.length by omega]
    exact this

/-- A status report but for its checksum. -/
theorem silentRun_status (ses : Session) (h : ses.Idle) (rsv0 rxErr txErr : Byte) (rsv1 : List Byte)
    (hl : rsv1.length = 13) :
    SilentRun ([0xAA, 0x55, 0x04, rsv0, rxErr, txErr] ++ rsv1) ses
      { ses with
        rxBuffer := ses.rxBuffer.writeAll 0 ([0xAA, 0x55, 0x04, rsv0, rxErr, txErr] ++ rsv1)
        cursor := 19
        detectState := .controllerStatus
        pendingRxErr := rxErr
        pendingTxErr := txErr } := by
  have r2 : SilentRun [0x04, rsv0, rxErr, txErr]
      { ses with rxBuffer := ses.rxBuffer.writeAll 0 [0xAA, 0x55], cursor := 2, detectState := .controllerStatus }
      { ses with
        rxBuffer := ses.rxBuffer.writeAll 0 [0xAA, 0x55, 0x04, rsv0, rxErr, txErr]
        cursor := 6
        detectState := .controllerStatus
        pendingRxErr := rxErr
        pendingTxErr := txErr } :=
    .cons (receive_statusByte _ 0x04 2 rfl rfl (by omega) (by simp))
      (.cons (receive_statusByte _ rsv0 3 rfl rfl (by omega) (by simp))
        (.cons (receive_statusByte _ rxErr 4 rfl rfl (by omega) (by simp))
          (.cons (receive_statusByte _ txErr 5 rfl rfl (by omega) (by simp)) (.nil _))))
  have := ((silentRun_statusHeader ses h).append r2).append
    (silentRun_reserved rsv1 _ rfl (Nat.le_refl 6) (by dsimp only; omega))
  dsimp only at this
  have hw := RxBuffer.writeAll_append [0xAA, 0x55, 0x04, rsv0, rxErr, txErr] rsv1 ses.rxBuffer 0
  rw [show 0 + [0xAA, 0x55, 0x04, rsv0, rxErr, txErr].length = 6 from rfl] at hw
  rw [← hw, hl] at this
  exact this

/-- ResetMessage of a Session that was idle before the message leaves only the buffer changed. -/
theorem Session.Idle.resetMessage_eq {ses : Session} (h : ses.Idle) (buf : RxBuffer) (c : Nat) (d : BitVec 4) (k : IdKind)
    (ds : DetectState) (p : IdBytes) (r x : Byte) :
    Session.resetMessage
      { ses with
        rxBuffer := buf, cursor := c, pendingDlc := d, pendingType := k, detectState := ds, pendingId := p,
        pendingRxErr := r, pendingTxErr := x } = { ses with rxBuffer := buf } := by
  obtain ⟨⟩ := ses
  obtain ⟨h1, h2, h3, h4, h5, h6, h7⟩ := h
  simp only at h1 h2 h3 h4 h5 h6 h7
  subst h1 h2 h3 h4 h5 h6 h7
  rfl

end Sys2Proof.Machine
end

