-- ==== Sys2Proof/Laws/PerInstr.lean ====
section
/-! SUPPORT. The family `RowMatch`, one lemma per constructor: the bytes of a well-formed instruction have the length
and the leading bytes that its row of spec/opcode_table.json gives (match under mask). -/

namespace Sys2Proof.Laws

/-- A row's leading bytes: mask and match, byte by byte from the first. -/
def rowPattern : Instr → List (Byte × Byte)
  | .feed _ => [(0xFF, 0x01)]
  | .encFrame .. => [(0xFF, 0x02)]
  | .encConfig .. => [(0xFF, 0x03)]
  | .encFilter _ => [(0xFF, 0x04)]
  | .encCancel => [(0xFF, 0x05)]
  | .init _ => [(0xFF, 0x06)]
  | .deinit => [(0xFF, 0x07)]
  | .illFormedRecord _ => []
  | .dataFrameStd .. => [(0xFF, 0xAA), (0xE0, 0xC0)]
  | .dataFrameExt .. => [(0xFF, 0xAA), (0xE0, 0xE0)]
  | .statusReport .. => [(0xFF, 0xAA), (0xFF, 0x55), (0xFF, 0x04)]
  | .configMsg .. => [(0xFF, 0xAA), (0xFF, 0x55), (0xFF, 0x12)]
  | .filterEnable .. => [(0xFF, 0xAA), (0xFF, 0x55), (0xFF, 0x10)]
  | .filterCancel => [(0xFF, 0xAA), (0xFF, 0x55), (0xFF, 0x10), (0xFF, 0x00), (0xFF, 0x10)]
  | .ctrlDlcInvalid _ => [(0xFF, 0xAA), (0xC0, 0xC0)]
  | .frameInfoUnrecognized _ => [(0xFF, 0xAA), (0x00, 0x00)]
  | .statusPathOtherDisc _ => [(0xFF, 0xAA), (0xFF, 0x55), (0x00, 0x00)]

/-- A row's `length_bytes`. -/
def rowLength : Instr → Nat
  | .feed _ => 2
  | .encFrame .. => 15
  | .encConfig .. => 12
  | .encFilter ids => 2 + 4 * ids.length
  | .encCancel => 1
  | .init _ => 2
  | .deinit => 1
  | .illFormedRecord record => record.length
  | .dataFrameStd _ _ data _ => 5 + data.length
  | .dataFrameExt _ _ data _ => 7 + data.length
  | .statusReport .. => 20
  | .configMsg .. => 20
  | .filterEnable ids _ => 5 + 4 * ids.length
  | .filterCancel => 5
  | .ctrlDlcInvalid _ => 2
  | .frameInfoUnrecognized _ => 2
  | .statusPathOtherDisc _ => 3

/-- Bytes match a pattern: as long at least, and each byte under its mask. -/
def matchesRow : List (Byte × Byte) → List Byte → Bool
  | [], _ => true
  | _ :: _, [] => false
  | (mask, value) :: ps, b :: bs => b &&& mask == value && matchesRow ps bs

namespace RowMatch

def Statement (i : Instr) : Prop :=
  i.wf = true → (encode i).length = rowLength i ∧ matchesRow (rowPattern i) (encode i) = true

theorem matches_control (k : IdKind) (b : Bool) (n : Nat) (h : n ≤ 8) :
    wireControlByte k b n &&& 0xE0 = (match k with | .standard => 0xC0 | .extended => 0xE0) := by
  interval_cases n <;> cases k <;> cases b <;> decide

theorem feed (b : Byte) : Statement (.feed b) := fun _ => ⟨rfl, rfl⟩
theorem encFrame (kind : IdKind) (id : Word32) (dlc : Byte) (data : List Byte) :
    Statement (.encFrame kind id dlc data) := fun h => by
  have h : data.length = 8 := by simpa [Instr.wf] using h
  simp [encode, rowLength, rowPattern, matchesRow, le32, h]
theorem encConfig (baud kind : Byte) (filterId maskId : Word32) (mode : Byte) :
    Statement (.encConfig baud kind filterId maskId mode) := fun _ => ⟨rfl, rfl⟩
theorem encFilter (ids : List Word32) : Statement (.encFilter ids) := fun _ => by
  have := flatMap_le32_length ids
  simp [encode, rowLength, rowPattern, matchesRow, -List.length_flatMap, this]; omega
theorem encCancel : Statement .encCancel := fun _ => ⟨rfl, rfl⟩
theorem init (sinks : Sinks) : Statement (.init sinks) := fun _ => ⟨rfl, rfl⟩
theorem deinit : Statement .deinit := fun _ => ⟨rfl, rfl⟩
theorem illFormedRecord (record : List Byte) : Statement (.illFormedRecord record) := fun _ => ⟨rfl, rfl⟩
theorem dataFrameStd (bit4 : Bool) (id : Word16) (data : List Byte) (eof : Byte) :
    Statement (.dataFrameStd bit4 id data eof) := fun h => by
  have h : data.length ≤ 8 := by simpa [Instr.wf] using h
  refine ⟨?_, by simpa [encode, rowPattern, matchesRow] using matches_control .standard bit4 _ h⟩
  simp [encode, rowLength, le16]; omega
theorem dataFrameExt (bit4 : Bool) (id : Word32) (data : List Byte) (eof : Byte) :
    Statement (.dataFrameExt bit4 id data eof) := fun h => by
  have h : data.length ≤ 8 := by simpa [Instr.wf] using h
  refine ⟨?_, by simpa [encode, rowPattern, matchesRow] using matches_control .extended bit4 _ h⟩
  simp [encode, rowLength, le32]; omega
theorem statusReport (rsv0 rxErr txErr : Byte) (rsv1 : List Byte) (sum : Byte) :
    Statement (.statusReport rsv0 rxErr txErr rsv1 sum) := fun h => by
  have h : rsv1.length = 13 := by simpa [Instr.wf] using h
  simp [encode, rowLength, rowPattern, matchesRow, h]
theorem configMsg (baud kind : Byte) (filterId maskId : Word32) (mode const : Byte) (rsv : List Byte) (sum : Byte) :
    Statement (.configMsg baud kind filterId maskId mode const rsv sum) := fun h => by
  have h : rsv.length = 4 := by simpa [Instr.wf] using h
  simp [encode, rowLength, rowPattern, matchesRow, le32, h]
theorem filterEnable (ids : List Word32) (sum : Byte) : Statement (.filterEnable ids sum) := fun _ => by
  have := flatMap_le32_length ids
  simp [encode, rowLength, rowPattern, matchesRow, -List.length_flatMap, this]; omega
theorem filterCancel : Statement .filterCancel := fun _ => ⟨rfl, rfl⟩
theorem ctrlDlcInvalid (ctrl : Byte) : Statement (.ctrlDlcInvalid ctrl) := fun h => by
  have h := (Bool.and_eq_true_iff.1 h).1
  exact ⟨rfl, by simpa [encode, rowPattern, matchesRow] using h⟩
theorem frameInfoUnrecognized (b : Byte) : Statement (.frameInfoUnrecognized b) := fun _ => by
  simp [encode, rowLength, rowPattern, matchesRow]
theorem statusPathOtherDisc (disc : Byte) : Statement (.statusPathOtherDisc disc) := fun _ => by
  simp [encode, rowLength, rowPattern, matchesRow]

end RowMatch

end Sys2Proof.Laws
end

