-- ==== Sys2Proof/Tests/Slice0.lean ====
section
/-! SUPPORT. Tests of the model on small states, with expected values from spec/ (the rules' own examples and the vectors
of 95_test_vectors.md), and one witness per statement with hypotheses. -/

open Sys2Proof Sys2Proof.Machine Sys2Proof.Spec

namespace Sys2Proof.Tests

/-! ### Well-formedness: one ill-formed term per check -/

theorem test_wf_encFrame_seven_slots : (Instr.encFrame .standard 0 0 [0, 0, 0, 0, 0, 0, 0]).wf = false := by decide
theorem test_wf_encFilter_256_ids : (Instr.encFilter (List.replicate 256 0)).wf = false := by decide +kernel
theorem test_wf_illFormedRecord_is_deinit : (Instr.illFormedRecord [0x07]).wf = false := by decide
theorem test_wf_dataFrameStd_nine_bytes : (Instr.dataFrameStd false 0 (List.replicate 9 0) 0x55).wf = false := by decide
theorem test_wf_dataFrameExt_nine_bytes : (Instr.dataFrameExt false 0 (List.replicate 9 0) 0x55).wf = false := by decide
theorem test_wf_statusReport_fourteen_reserved :
    (Instr.statusReport 0 0 0 (List.replicate 14 0) 0).wf = false := by decide
theorem test_wf_configMsg_three_reserved : (Instr.configMsg 0 0 0 0 0 1 [0, 0, 0] 0).wf = false := by decide
theorem test_wf_filterEnable_256_ids : (Instr.filterEnable (List.replicate 256 0) 0).wf = false := by decide +kernel
theorem test_wf_filterEnable_is_cancel : (Instr.filterEnable [] 0x10).wf = false := by decide
theorem test_wf_ctrlDlcInvalid_dlc8 : (Instr.ctrlDlcInvalid 0xC8).wf = false := by decide
theorem test_wf_ctrlDlcInvalid_no_control : (Instr.ctrlDlcInvalid 0x4F).wf = false := by decide
theorem test_wf_frameInfoUnrecognized_55 : (Instr.frameInfoUnrecognized 0x55).wf = false := by decide
theorem test_wf_frameInfoUnrecognized_control : (Instr.frameInfoUnrecognized 0xC0).wf = false := by decide
theorem test_wf_statusPathOtherDisc_04 : (Instr.statusPathOtherDisc 0x04).wf = false := by decide

/-- R90, case by case: unknown operations, short and long records, kind 2, reserved sink bits. -/
theorem test_wf_records :
    recordWellFormed [] = false ∧ recordWellFormed [0x00] = false ∧ recordWellFormed [0x08] = false ∧
    recordWellFormed [0x01] = false ∧ recordWellFormed [0x01, 0xAA, 0xAA] = false ∧
    recordWellFormed (0x02 :: 0x02 :: List.replicate 13 0) = false ∧
    recordWellFormed (0x02 :: 0x00 :: List.replicate 12 0) = false ∧ recordWellFormed [0x03, 0x00] = false ∧
    recordWellFormed [0x04] = false ∧ recordWellFormed [0x04, 0x01, 0, 0, 0] = false ∧
    recordWellFormed [0x05, 0x00] = false ∧ recordWellFormed [0x06, 0x08] = false ∧ recordWellFormed [0x07, 0x00] = false := by
  decide

/-! ### Decoding: words written from the encodings -/

theorem test_decode_feed : decode .host [0x01, 0xAA] = some (.feed 0xAA, []) := by decide
/-- ENC-1 of 95_test_vectors.md. -/
theorem test_decode_encFrame :
    decode .host [0x02, 0x00, 0x00, 0x02, 0x00, 0x00, 0x08, 0x11, 0x22, 0x33, 0x44, 0x55, 0x66, 0x77, 0x88] =
      some (.encFrame .standard 0x200 8 [0x11, 0x22, 0x33, 0x44, 0x55, 0x66, 0x77, 0x88], []) := by decide
/-- PROG-4 of 95_test_vectors.md. -/
theorem test_decode_encConfig :
    decode .host [0x03, 0x05, 0x02, 0x78, 0x56, 0x34, 0x12, 0xFF, 0xFF, 0xFF, 0x1F, 0x01] =
      some (.encConfig 0x05 0x02 0x12345678 0x1FFFFFFF 0x01, []) := by decide
/-- PROG-4 of 95_test_vectors.md. -/
theorem test_decode_encFilter :
    decode .host [0x04, 0x02, 0x23, 0x01, 0x00, 0x00, 0xFF, 0xFF, 0xFF, 0x1F] =
      some (.encFilter [0x123, 0x1FFFFFFF], []) := by decide
theorem test_decode_encCancel : decode .host [0x05] = some (.encCancel, []) := by decide
/-- PROG-5 of 95_test_vectors.md: `INIT frame,byte` is 06 05. -/
theorem test_decode_init : decode .host [0x06, 0x05] = some (.init ⟨true, false, true⟩, []) := by decide
theorem test_decode_deinit : decode .host [0x07] = some (.deinit, []) := by decide
/-- LC-10 to LC-13 of 95_test_vectors.md. -/
theorem test_decode_illFormedRecord :
    decode .host [0x08] = some (.illFormedRecord [0x08], []) ∧
    decode .host [0x02, 0x02, 0, 0, 0, 0, 0, 0, 0, 0, 0, 0, 0, 0, 0] =
      some (.illFormedRecord [0x02, 0x02, 0, 0, 0, 0, 0, 0, 0, 0, 0, 0, 0, 0, 0], []) ∧
    decode .host [0x06, 0x08] = some (.illFormedRecord [0x06, 0x08], []) ∧
    decode .host [0x01] = some (.illFormedRecord [0x01], []) := by decide
/-- RX-13 of 95_test_vectors.md: bit 4 of the control byte is ignored, and a byte follows the message. -/
theorem test_decode_dataFrameStd :
    decode .wire [0xAA, 0xD8, 0x01, 0x00, 1, 2, 3, 4, 5, 6, 7, 8, 0x55, 0xAA] =
      some (.dataFrameStd true 0x001 [1, 2, 3, 4, 5, 6, 7, 8] 0x55, [0xAA]) := by decide
/-- ENC-3 of 95_test_vectors.md. -/
theorem test_decode_dataFrameExt :
    decode .wire [0xAA, 0xE1, 0xF0, 0xDE, 0xBC, 0x1A, 0xAA, 0x55] =
      some (.dataFrameExt false 0x1ABCDEF0 [0xAA] 0x55, []) := by decide
/-- EX-2 of 95_test_vectors.md. -/
theorem test_decode_statusReport :
    decode .wire ([0xAA, 0x55, 0x04, 0x00, 0x03, 0x02] ++ List.replicate 13 0x00 ++ [0x09]) =
      some (.statusReport 0 3 2 (List.replicate 13 0) 0x09, []) := by decide
/-- CFG-2 of 95_test_vectors.md. -/
theorem test_decode_configMsg :
    decode .wire [0xAA, 0x55, 0x12, 0x05, 0x02, 0x78, 0x56, 0x34, 0x12, 0xFF, 0xFF, 0xFF, 0x1F, 0x01, 0x01, 0, 0, 0, 0, 0x4B] =
      some (.configMsg 0x05 0x02 0x12345678 0x1FFFFFFF 0x01 0x01 [0, 0, 0, 0] 0x4B, []) := by decide
/-- FLT-2 of 95_test_vectors.md. -/
theorem test_decode_filterEnable :
    decode .wire [0xAA, 0x55, 0x10, 0x02, 0x23, 0x01, 0x00, 0x00, 0xFF, 0xFF, 0xFF, 0x1F, 0x52] =
      some (.filterEnable [0x123, 0x1FFFFFFF] 0x52, []) := by decide
theorem test_decode_filterCancel : decode .wire [0xAA, 0x55, 0x10, 0x00, 0x10] = some (.filterCancel, []) := by decide
theorem test_decode_ctrlDlcInvalid : decode .wire [0xAA, 0xC9] = some (.ctrlDlcInvalid 0xC9, []) := by decide
theorem test_decode_frameInfoUnrecognized :
    decode .wire [0xAA, 0xAA] = some (.frameInfoUnrecognized 0xAA, []) := by decide
theorem test_decode_statusPathOtherDisc :
    decode .wire [0xAA, 0x55, 0x05] = some (.statusPathOtherDisc 0x05, []) := by decide
/-- Serial bytes that complete no row are FEEDs, one at a time (log entry 5). -/
theorem test_decode_loose_byte :
    decode .wire [0x55, 0xAA] = some (.feed 0x55, [0xAA]) ∧ decode .wire [0xAA, 0xC1, 0x01] = some (.feed 0xAA, [0xC1, 0x01]) := by
  decide

/-- The host rows of spec/opcode_table.json by their match words, operand bytes zero. -/
theorem test_table_host_rows :
    decodeTableWord 8 0x01 = some (.feed 0) ∧
    decodeTableWord 8 0x02 = some (.encFrame .standard 0 0 [0, 0, 0, 0, 0, 0, 0, 0]) ∧
    decodeTableWord 8 0x03 = some (.encConfig 0 0 0 0 0) ∧ decodeTableWord 8 0x04 = some (.encFilter []) ∧
    decodeTableWord 8 0x05 = some .encCancel ∧ decodeTableWord 8 0x06 = some (.init ⟨false, false, false⟩) ∧
    decodeTableWord 8 0x07 = some .deinit ∧ decodeTableWord 8 0x00 = some (.illFormedRecord [0x00]) ∧
    decodeTableWord 8 0x08 = some (.illFormedRecord [0x08]) := by decide
/-- The wire rows by their match words, the bytes after them zero. -/
theorem test_table_wire_rows :
    decodeTableWord 16 0xAAC0 = some (.dataFrameStd false 0 [] 0) ∧
    decodeTableWord 16 0xAAE0 = some (.dataFrameExt false 0 [] 0) ∧
    decodeTableWord 24 0xAA5504 = some (.statusReport 0 0 0 (List.replicate 13 0) 0) ∧
    decodeTableWord 24 0xAA5512 = some (.configMsg 0 0 0 0 0 0 [0, 0, 0, 0] 0) ∧
    decodeTableWord 24 0xAA5510 = some (.filterEnable [] 0) ∧
    decodeTableWord 40 0xAA55100010 = some .filterCancel ∧
    decodeTableWord 16 0xAAC9 = some (.ctrlDlcInvalid 0xC9) ∧
    decodeTableWord 16 0xAA00 = some (.frameInfoUnrecognized 0) ∧
    decodeTableWord 24 0xAA5500 = some (.statusPathOtherDisc 0) := by decide +kernel

/-! ### Single steps -/

/-- A fresh Session after `INIT frame,status,byte`, with the byte sink's next answer `Ok`. -/
def live : State :=
  { State.reset with session := .fresh ⟨true, true, true⟩ 0, byteSinkAnswers := [.ok], draws := 1 }

/-- `live` after these serial bytes. -/
def fed (bytes : List Byte) : State :=
  match feedBytes bytes live with
  | .next s => s
  | .fault _ => live
  | .refused _ => live

/-- The state an outcome leads to. -/
def after : Out → State
  | .next s => s
  | .fault _ => .reset
  | .refused _ => .reset

/-- Whether an outcome is a next state. -/
def completes : Out → Bool
  | .next _ => true
  | .fault _ => false
  | .refused _ => false

/-- RX-35: 0xF0 is extended with DLC 0, so 0x55 is an identifier byte. -/
theorem test_feed_partial :
    (fed [0xAA, 0xF0, 0x34, 0x12, 0x55]).session.detectState = .idExt ∧
    (fed [0xAA, 0xF0, 0x34, 0x12, 0x55]).session.cursor = 5 ∧
    (fed [0xAA, 0xF0, 0x34, 0x12, 0x55]).session.pendingId = ⟨0x34, 0x12, 0x55, 0x00⟩ := by decide
/-- RX-14: the bad terminator AA is consumed. -/
theorem test_feed_bad_terminator :
    (after (exec (.feed 0xAA) (fed [0xAA, 0xC1, 0x01, 0x00, 0x42]))).trace = [] ∧
    (after (exec (.feed 0xAA) (fed [0xAA, 0xC1, 0x01, 0x00, 0x42]))).session.detectState = .waitStart := by decide
/-- ENC-9: an identifier out of range goes out uninterpreted, its low 16 bits. -/
theorem test_encFrame_out_of_range_id :
    (after (exec (.encFrame .standard 0x12345 0 [1, 2, 3, 4, 5, 6, 7, 8]) live)).trace =
      [.sendBytes [0xAA, 0xC0, 0x45, 0x23, 0x55] .ok, .result .ok] := by decide
/-- ENCR-2: the operand check precedes the sink-presence check. -/
theorem test_encFrame_dlc9_no_sink :
    (after (exec (.encFrame .standard 1 9 [0, 0, 0, 0, 0, 0, 0, 0])
      { live with session := .fresh ⟨false, false, false⟩ 0 })).trace = [.result .invalidArgument] := by decide
/-- CFG-3: the checksum wraps. -/
theorem test_encConfig_wraps :
    (after (exec (.encConfig 0xFF 0xFF 0xFFFFFFFF 0xFFFFFFFF 0xFF) live)).trace =
      [.sendBytes ([0xAA, 0x55, 0x12] ++ List.replicate 11 0xFF ++ [0x01, 0, 0, 0, 0, 0x08]) .ok, .result .ok] := by
  decide
/-- FLT-2: list order, little-endian, checksum 52. -/
theorem test_encFilter_list_order :
    (after (exec (.encFilter [0x123, 0x1FFFFFFF]) live)).trace =
      [.sendBytes [0xAA, 0x55, 0x10, 0x02, 0x23, 0x01, 0x00, 0x00, 0xFF, 0xFF, 0xFF, 0x1F, 0x52] .ok, .result .ok] := by
  decide
/-- FLT-4: `ENC_FILTER []` is refused by the operand check. -/
theorem test_encFilter_empty : (after (exec (.encFilter []) live)).trace = [.result .invalidArgument] := by decide
/-- ENCR-3: the byte sink's error is passed through. -/
theorem test_encCancel_sinkError :
    (after (exec .encCancel { live with byteSinkAnswers := [.err ⟨1⟩] })).trace =
      [.sendBytes [0xAA, 0x55, 0x10, 0x00, 0x10] (.err ⟨1⟩), .result (.sinkError ⟨1⟩)] := by decide
/-- ENCR-1: no byte sink. -/
theorem test_encCancel_no_sink :
    (after (exec .encCancel { live with session := .fresh ⟨true, true, false⟩ 0 })).trace = [.result .ok] := by decide
/-- LC-1: the sink bits come from the operand. -/
theorem test_init_sets_sinks :
    (after (exec (.init ⟨true, false, true⟩) { State.reset with initAnswers := [true] })).returned = some .handle ∧
    (after (exec (.init ⟨true, false, true⟩) { State.reset with initAnswers := [true] })).session.statusSinkPresent = false ∧
    (after (exec (.init ⟨true, false, true⟩) { State.reset with initAnswers := [true] })).session.byteSinkPresent = true := by
  decide
/-- LC-2: a failed INIT. -/
theorem test_init_fails :
    (after (exec (.init ⟨true, false, false⟩) { State.reset with initAnswers := [false] })).returned = some .null ∧
    (after (exec (.init ⟨true, false, false⟩) { State.reset with initAnswers := [false] })).session.life = .absent := by
  decide
theorem test_deinit_releases : (after (exec .deinit live)).session.life = .released := by decide
/-- EX-1 fed back. -/
theorem test_dataFrameStd_delivered :
    (after (exec (.dataFrameStd false 0x200 [0x11, 0x22, 0x33, 0x44, 0x55, 0x66, 0x77, 0x88] 0x55) live)).trace =
      [.frameEvent ⟨.standard, 0x200, 8, [0x11, 0x22, 0x33, 0x44, 0x55, 0x66, 0x77, 0x88]⟩] := by decide
/-- RX-17: 0x800 is the smallest standard identifier out of range. -/
theorem test_dataFrameStd_id_range : (after (exec (.dataFrameStd false 0x800 [] 0x55) live)).trace = [] := by decide
/-- RX-3. -/
theorem test_dataFrameExt_delivered :
    (after (exec (.dataFrameExt false 0x1ABCDEF0 [0xAA] 0x55) live)).trace =
      [.frameEvent ⟨.extended, 0x1ABCDEF0, 1, [0xAA]⟩] := by decide
/-- RX-19: 0x20000000 is the smallest extended identifier out of range. -/
theorem test_dataFrameExt_id_range : (after (exec (.dataFrameExt false 0x20000000 [] 0x55) live)).trace = [] := by decide
/-- ST-2: reserved bytes AA 55 are data; tx = 80, rx = FF. -/
theorem test_statusReport_delivered :
    (after (exec (.statusReport 0x7E 0xFF 0x80 (0xAA :: 0x55 :: List.replicate 11 0x11) 0xBB) live)).trace =
      [.statusEvent 0x80 0xFF] := by decide
/-- ST-4: a wrong checksum. -/
theorem test_statusReport_checksum :
    (after (exec (.statusReport 0 3 2 (List.replicate 13 0) 0x0A) live)).trace = [] := by decide
/-- RX-40: CFG-1's bytes are abandoned. -/
theorem test_configMsg_abandoned :
    (after (exec (.configMsg 0x03 0x01 0 0 0 0x01 [0, 0, 0, 0] 0x17) live)).trace = [] ∧
    (after (exec (.configMsg 0x03 0x01 0 0 0 0x01 [0, 0, 0, 0] 0x17) live)).session.detectState = .waitStart := by decide
/-- RX-43: `AA 55 10 01 55 AA 55 AA 0F` is abandoned twice. -/
theorem test_filterEnable_abandoned :
    (after (exec (.filterEnable [0xAA55AA55] 0x0F) live)).trace = [] ∧
    (after (exec (.filterEnable [0xAA55AA55] 0x0F) live)).session.detectState = .waitStart := by decide
/-- RX-42. -/
theorem test_filterCancel_abandoned :
    (after (exec .filterCancel live)).trace = [] ∧ (after (exec .filterCancel live)).session.cursor = 0 := by decide
/-- RX-12: C9 ends the message at once. -/
theorem test_ctrlDlcInvalid_resets : (after (exec (.ctrlDlcInvalid 0xC9) live)).session.detectState = .waitStart := by decide
/-- RX-31: 00 is discarded and the machine stays. -/
theorem test_frameInfoUnrecognized_stays :
    (after (exec (.frameInfoUnrecognized 0x00) live)).session.detectState = .frameInfo ∧
    (after (exec (.frameInfoUnrecognized 0x00) live)).session.cursor = 1 := by decide
/-- ST-7. -/
theorem test_statusPathOtherDisc_resets :
    (after (exec (.statusPathOtherDisc 0x05) live)).session.detectState = .waitStart := by decide
/-- LC-10: the refusal. -/
theorem test_illFormedRecord_refused : completes (step { live with input := [⟨.host, [0x08], false⟩] }) = false := by decide

/-- R244: a byte sink gone before DEINIT stops the encoder; one that is absent, or a FEED that delivers nothing, goes on. -/
theorem test_invalid_sink :
    exec .encCancel { live with sinkConduct := [.gone] } = .fault .invalidSink ∧
    completes (exec .encCancel { live with session := .fresh ⟨true, true, false⟩ 0, sinkConduct := [.gone] }) = true ∧
    completes (exec (.feed 0xAA) { live with sinkConduct := [.gone] }) = true :=
  ⟨rfl, by decide, by decide⟩

/-! ### Witnesses: the hypotheses of each statement can be met, clause by clause -/

theorem next_of_completes {o : Out} (h : completes o = true) : ∃ t, o = .next t := by
  cases o with
  | next t => exact ⟨t, rfl⟩
  | fault f => cases h
  | refused r => cases h

def released : State := { live with session := { live.session with life := .released } }
def inSinkCall : State := { live with sinkCallInProgress := true }
def overlapped : State := { live with overlapping := true }
def noSinks : State := { live with session := .fresh ⟨false, false, false⟩ 0 }
/-- The bytes of RX-33, one before its terminator, and of ST-1 but for its checksum. -/
def beforeEof : State := fed [0xAA, 0xC1, 0x01, 0x00, 0x42]
def beforeChecksum : State := fed ([0xAA, 0x55, 0x04, 0x00, 0x03, 0x02] ++ List.replicate 13 0x00)
/-- The longest data frame, an extended one with DLC 8, before its terminator. -/
def beforeLongEof : State := fed ([0xAA, 0xE8, 0x10, 0xF1, 0xDA, 0x18] ++ List.replicate 8 0xAA)

/-- The line of R36's table that applies, as a check. -/
def tableCheck (ses : Session) : Bool :=
  match ses.detectState with
  | .waitStart => decide (ses.cursor = 0 ∧ ses.Cleared)
  | .frameInfo => decide (ses.cursor = 1 ∧ ses.rxBuffer.read 0 = 0xAA ∧ ses.Cleared)
  | .idStd => decide ((ses.cursor = 2 ∨ ses.cursor = 3) ∧ ses.pendingType = .standard ∧ ses.pendingDlc.toNat ≤ 8)
  | .idExt =>
    decide (2 ≤ ses.cursor ∧ ses.cursor ≤ 5 ∧ ses.pendingType = .extended ∧ ses.pendingDlc.toNat ≤ 8)
  | .data =>
    decide (dataOffset ses.pendingType ≤ ses.cursor ∧ ses.cursor < ses.dataEnd ∧ ses.pendingDlc.toNat ≤ 8)
  | .eof => decide (ses.cursor = ses.dataEnd ∧ ses.dataEnd ≤ 14 ∧ ses.pendingDlc.toNat ≤ 8)
  | .controllerStatus =>
    decide (2 ≤ ses.cursor ∧ ses.cursor ≤ 19 ∧ ses.pendingType = .standard ∧ ses.pendingDlc = 0 ∧ ses.pendingId = .zero)

theorem table_of_check {ses : Session} (h : tableCheck ses = true) : ses.Table := by
  unfold tableCheck at h
  cases hd : ses.detectState <;> rw [hd] at h <;> have h := of_decide_eq_true h <;>
    refine ⟨?_, ?_, ?_, ?_, ?_, ?_, ?_⟩ <;> intro he <;> first | exact h | (rw [hd] at he; cases he)

/-- A state of the invariant, with a live Session. -/
def liveCheck (s : State) : Bool :=
  decide (Memory.wf s.session.rxBuffer.cells) && !s.sinkCallInProgress && tableCheck s.session &&
    decide s.session.Written && decide s.session.StdHighZero

theorem inv_of_check {s : State} (h : liveCheck s = true) : s.Inv := by
  simp only [liveCheck, Bool.and_eq_true, Bool.not_eq_true', decide_eq_true_eq] at h
  exact ⟨h.1.1.1.1, h.1.1.1.2, fun _ => ⟨table_of_check h.1.1.2, h.1.2, h.2⟩⟩

theorem witness_PowerOnHasNoSession : isEncoder .encCancel = true := by decide

/-- The four clauses: live, an answer of each kind, and no answer. -/
theorem witness_InitCreatesFreshSession :
    (live.overlapping = false ∧ live.session.life = .live) ∧
    (released.overlapping = false ∧ released.session.life ≠ .live ∧ released.sinkCallInProgress = false) ∧
    ({ released with initAnswers := [true] } : State).initAnswers = true :: [] ∧
    ({ released with initAnswers := [false] } : State).initAnswers = false :: [] := by decide

theorem witness_DeinitReleasesSession :
    (released.overlapping = false ∧ released.session.life = .released) ∧
    (State.reset.overlapping = false ∧ State.reset.session.life = .absent) ∧
    (inSinkCall.overlapping = false ∧ inSinkCall.session.life = .live ∧ inSinkCall.sinkCallInProgress = true) ∧
    live.Ready := by decide

theorem witness_EntryChecksInOrder :
    (Instr.feed 0).port = .host ∧ (∀ r, Instr.feed 0 ≠ .illFormedRecord r) ∧ overlapped.overlapping = true ∧
    (released.session.life = .released ∧ ∀ sinks, Instr.feed 0 ≠ .init sinks) ∧
    State.reset.session.life = .absent ∧ live.session.life = .live ∧ inSinkCall.sinkCallInProgress = true ∧
    inSinkCall.session.life = .live ∧
    (({ released with sinkCallInProgress := true } : State).session.life ≠ .live ∧
      ∃ sinks, Instr.init ⟨true, true, true⟩ = .init sinks) := by
  refine ⟨rfl, by simp, rfl, ⟨rfl, by simp⟩, rfl, rfl, rfl, rfl, by decide, _, rfl⟩

theorem witness_WireMessagesStopAsFeedDoes :
    Instr.filterCancel.port = .wire ∧ overlapped.overlapping = true ∧ released.session.life = .released ∧
    State.reset.session.life = .absent ∧ inSinkCall.sinkCallInProgress = true := by decide

/-- Every encoder at the ends of its operands, and both events; an ill-formed record (08), an INIT and an ENC_CANCEL
(ENCR-6) called back. -/
theorem witness_CallingBackFromASinkStops :
    (({ live with sinkConduct := [.valid [[0x05]]] } : State).Ready ∧
      callsSink (.encFrame .standard 0 8 (List.replicate 8 0)) live.session ∧ callsSink (.encConfig 0 0 0 0 0) live.session ∧
      callsSink (.encFilter [0]) live.session ∧ callsSink (.encFilter (List.replicate 255 0)) live.session ∧
      callsSink .encCancel live.session) ∧
    (({ beforeEof with sinkConduct := [.valid [[0x06, 0x00]]] } : State).Ready ∧ callsSink (.feed 0x55) beforeEof.session) ∧
    (beforeChecksum.Ready ∧ callsSink (.feed 0x09) beforeChecksum.session) ∧
    recordWellFormed [0x05] = true ∧ recordWellFormed [0x06, 0x00] = true ∧ recordWellFormed [0x08] = false := by
  refine ⟨⟨by decide, ?_, ?_, ?_, ?_, ?_⟩, ⟨by decide, ?_⟩, ⟨by decide +kernel, ?_⟩, by decide⟩
  case refine_6 =>
    exact .inr ⟨0x55, rfl, by unfold eventAllowed; decide +kernel, by decide, table_of_check (by decide +kernel)⟩
  case refine_7 =>
    exact .inr ⟨0x09, rfl, by unfold eventAllowed; decide +kernel, by decide +kernel, table_of_check (by decide +kernel)⟩
  all_goals exact .inl ⟨rfl, by unfold operandsValid; decide +kernel, by decide⟩

/-- The same operations, with the sink gone at its call. -/
theorem witness_CallingAnInvalidSinkStops :
    ({ live with sinkConduct := [.gone] } : State).Ready ∧ callsSink .encCancel live.session ∧
    ({ beforeEof with sinkConduct := [.gone] } : State).Ready ∧ callsSink (.feed 0x55) beforeEof.session :=
  ⟨by decide, witness_CallingBackFromASinkStops.1.2.2.2.2.2, by decide, witness_CallingBackFromASinkStops.2.1.2⟩

/-- The cases of `EncoderRuns` on the state, for the four encoder statements (`EncCancelSendsFiveBytes` has no others). -/
theorem witness_EncoderRuns :
    (released.overlapping = false ∧ released.session.life = .released) ∧
    (State.reset.overlapping = false ∧ State.reset.session.life = .absent) ∧
    (inSinkCall.overlapping = false ∧ inSinkCall.session.life = .live ∧ inSinkCall.sinkCallInProgress = true) ∧
    (noSinks.overlapping = false ∧ noSinks.Ready ∧ noSinks.session.byteSinkPresent = false) ∧
    (live.overlapping = false ∧ live.Ready ∧ live.session.byteSinkPresent = true ∧ live.NextSinkQuiet) := by decide

theorem witness_EncFrameSendsDataFrame : (8 : Byte).toNat ≤ 8 ∧ ¬ (9 : Byte).toNat ≤ 8 := by decide

theorem witness_EncConfigSendsConfiguration :
    ∃ body, body = [0x12, 0x03, 0x01] ++ leBytes 4 0 ++ leBytes 4 0 ++ [0x00, 0x01, 0x00, 0x00, 0x00, 0x00] := ⟨_, rfl⟩

theorem witness_EncFilterSendsFilterList :
    (1 ≤ (List.replicate 255 (0 : Word32)).length ∧ (List.replicate 255 (0 : Word32)).length ≤ 255) ∧
    (1 ≤ ([0x100] : List Word32).length) ∧ ¬ 1 ≤ ([] : List Word32).length ∧
    ¬ (List.replicate 256 (0 : Word32)).length ≤ 255 := by decide +kernel

theorem witness_EncodersArePure :
    isEncoder .encCancel = true ∧ beforeEof.session ≠ live.session ∧ beforeEof.session.life = live.session.life ∧
    beforeEof.session.byteSinkPresent = live.session.byteSinkPresent ∧ ∃ t, exec .encCancel live = .next t :=
  ⟨rfl, by decide, by decide, by decide, next_of_completes (by decide)⟩

theorem witness_InvalidArgumentHasExactlyItsCauses :
    isEncoder (.encFilter []) = true ∧ (∃ t, exec (.encFilter []) live = .next t) ∧
    (∃ t, exec (.encFrame .standard 0 9 []) live = .next t) ∧ (∃ t, exec .encCancel State.reset = .next t) ∧
    (∃ t, exec .encCancel live = .next t) :=
  ⟨rfl, next_of_completes (by decide), next_of_completes (by decide), next_of_completes (by decide),
    next_of_completes (by decide)⟩

theorem witness_EncoderOutputIsItsWireRow :
    (8 : Byte).toNat ≤ 8 ∧ ([1, 2, 3, 4, 5, 6, 7, 8] : List Byte).length = 8 ∧ (0x7FF : Word32).toNat ≤ idMax .standard ∧
    (0x1FFFFFFF : Word32).toNat ≤ idMax .extended ∧ 1 ≤ ([0] : List Word32).length := by decide

theorem witness_FeedInWaitStart : live.Ready ∧ live.session.detectState = .waitStart := by decide

/-- The state; the four clauses' bytes at their ends: 55, C9, C8 and FF's neighbour F8, BF. -/
theorem witness_FeedInFrameInfo :
    (fed [0xAA]).Ready ∧ (fed [0xAA]).session.detectState = .frameInfo ∧
    (192 ≤ (0xC9 : Byte).toNat ∧ 8 < (0xC9 : Byte).toNat % 16) ∧
    (192 ≤ (0xC0 : Byte).toNat ∧ (0xC0 : Byte).toNat % 16 ≤ 8) ∧
    (192 ≤ (0xF8 : Byte).toNat ∧ (0xF8 : Byte).toNat % 16 ≤ 8) ∧ ((0xBF : Byte).toNat < 192 ∧ (0xBF : Byte) ≠ 0x55) := by
  decide

theorem witness_FeedInIdStd :
    ((fed [0xAA, 0xC2]).Ready ∧ (fed [0xAA, 0xC2]).session.detectState = .idStd ∧ (fed [0xAA, 0xC2]).session.cursor = 2) ∧
    ((fed [0xAA, 0xC2, 0x10]).Ready ∧ (fed [0xAA, 0xC2, 0x10]).session.detectState = .idStd ∧
      (fed [0xAA, 0xC2, 0x10]).session.cursor = 3) := by decide

theorem witness_FeedInIdExt :
    ((fed [0xAA, 0xE8]).Ready ∧ (fed [0xAA, 0xE8]).session.detectState = .idExt ∧ (fed [0xAA, 0xE8]).session.cursor = 2) ∧
    ((fed [0xAA, 0xE8, 1]).session.detectState = .idExt ∧ (fed [0xAA, 0xE8, 1]).session.cursor = 3) ∧
    ((fed [0xAA, 0xE8, 1, 2]).session.detectState = .idExt ∧ (fed [0xAA, 0xE8, 1, 2]).session.cursor = 4) ∧
    ((fed [0xAA, 0xE8, 1, 2, 3]).Ready ∧ (fed [0xAA, 0xE8, 1, 2, 3]).session.detectState = .idExt ∧
      (fed [0xAA, 0xE8, 1, 2, 3]).session.cursor = 5) := by decide

theorem witness_FeedInData :
    (fed [0xAA, 0xC2, 0x10, 0x00]).Ready ∧ (fed [0xAA, 0xC2, 0x10, 0x00]).session.detectState = .data ∧
    (fed [0xAA, 0xC2, 0x10, 0x00]).session.cursor < 20 := by decide

/-- DLC 1, and the longest frame (cursor 14), an identifier in range and one out of it, a sink and none. -/
theorem witness_FeedInEof :
    (beforeEof.Ready ∧ beforeEof.session.detectState = .eof ∧ beforeEof.NextSinkQuiet ∧
      beforeEof.session.cursor = dataStart beforeEof.session.pendingType + beforeEof.session.pendingDlc.toNat ∧
      beforeEof.session.frameSinkPresent = true ∧ idNumber beforeEof.session.pendingId ≤ idMax .standard) ∧
    (beforeLongEof.Ready ∧ beforeLongEof.session.detectState = .eof ∧ beforeLongEof.session.cursor = 14 ∧
      beforeLongEof.session.cursor =
        dataStart beforeLongEof.session.pendingType + beforeLongEof.session.pendingDlc.toNat) ∧
    (idMax .standard < idNumber (fed [0xAA, 0xC0, 0x00, 0x08]).session.pendingId ∧
      (fed [0xAA, 0xC0, 0x00, 0x08]).session.detectState = .eof) ∧
    ({ beforeEof with session := { beforeEof.session with frameSinkPresent := false } } : State).Ready := by
  decide +kernel

/-- Cursors 2, 3, 4, 5, 6, 18 and 19 in turn, all in `ControllerStatus`; the sum of ST-1, a sink and none. -/
theorem witness_FeedInControllerStatus :
    (∀ n ∈ [2, 3, 4, 5, 6, 18, 19],
      (fed (([0xAA, 0x55, 0x04, 0x00, 0x03, 0x02] ++ List.replicate 13 0x00).take n)).session.detectState =
        .controllerStatus ∧
      (fed (([0xAA, 0x55, 0x04, 0x00, 0x03, 0x02] ++ List.replicate 13 0x00).take n)).session.cursor = n ∧
      (fed (([0xAA, 0x55, 0x04, 0x00, 0x03, 0x02] ++ List.replicate 13 0x00).take n)).Ready) ∧
    sumMod256 ((List.range 17).map fun i => beforeChecksum.session.rxBuffer.read (2 + i)) = 0x09 ∧
    beforeChecksum.session.statusSinkPresent = true ∧ beforeChecksum.NextSinkQuiet ∧
    ({ beforeChecksum with session := { beforeChecksum.session with statusSinkPresent := false } } : State).Ready := by
  decide +kernel

theorem witness_FeedStoresOneByte :
    (∃ t, exec (.feed 0x00) live = .next t) ∧ live.session.detectState = .waitStart ∧
    (∃ t, exec (.feed 0x55) beforeLongEof = .next t) :=
  ⟨next_of_completes (by decide), rfl, next_of_completes (by decide +kernel)⟩

theorem witness_ReceptionLeavesTheRest :
    receives .filterCancel = true ∧ (∃ t, exec .filterCancel live = .next t) ∧ receives (.feed 0) = true :=
  ⟨rfl, next_of_completes (by decide), rfl⟩

theorem witness_EndedMessageClearsEveryPendingField :
    beforeEof.session.detectState ≠ .waitStart ∧
    ∃ t, exec (.feed 0x55) beforeEof = .next t ∧ t.session.detectState = .waitStart := by
  refine ⟨by decide, ?_⟩
  obtain ⟨t, h⟩ := next_of_completes (show completes (exec (.feed 0x55) beforeEof) = true by decide)
  refine ⟨t, h, ?_⟩
  have : (after (exec (.feed 0x55) beforeEof)).session.detectState = .waitStart := by decide
  rwa [h] at this

theorem witness_FeedEmitsAtMostOneEvent :
    (∃ t, exec (.feed 0x55) beforeEof = .next t) ∧ (∃ t, exec (.feed 0x09) beforeChecksum = .next t) :=
  ⟨next_of_completes (by decide), next_of_completes (by decide +kernel)⟩

/-- For the statements over the states of R36: one state in each `detectState`, in the invariant, ready and quiet. -/
theorem witness_invariant_states :
    (live.Inv ∧ live.Ready ∧ live.NextSinkQuiet ∧ live.SinksQuiet) ∧
    ((fed [0xAA]).Inv ∧ (fed [0xAA]).Ready ∧ (fed [0xAA]).SinksQuiet) ∧
    ((fed [0xAA, 0xC2]).Inv ∧ (fed [0xAA, 0xC2]).Ready ∧ (fed [0xAA, 0xC2]).SinksQuiet) ∧
    ((fed [0xAA, 0xE8]).Inv ∧ (fed [0xAA, 0xE8]).Ready ∧ (fed [0xAA, 0xE8]).SinksQuiet) ∧
    ((fed [0xAA, 0xC2, 0x10, 0x00]).Inv ∧ (fed [0xAA, 0xC2, 0x10, 0x00]).Ready) ∧
    (beforeEof.Inv ∧ beforeEof.Ready ∧ beforeEof.SinksQuiet) ∧
    (beforeChecksum.Inv ∧ beforeChecksum.Ready ∧ beforeChecksum.SinksQuiet) := by
  refine ⟨⟨inv_of_check ?_, ?_⟩, ⟨inv_of_check ?_, ?_⟩, ⟨inv_of_check ?_, ?_⟩, ⟨inv_of_check ?_, ?_⟩,
    ⟨inv_of_check ?_, ?_⟩, ⟨inv_of_check ?_, ?_⟩, ⟨inv_of_check ?_, ?_⟩⟩ <;> decide +kernel

theorem witness_TransitionRelationIsComplete :
    beforeEof.Inv ∧ beforeEof.Ready ∧ beforeEof.NextSinkQuiet :=
  ⟨inv_of_check (by decide +kernel), by decide⟩

/-- A status report just begun (18 bytes to go) and an extended frame just begun (13 bytes to go). -/
theorem witness_RecoveryWithinEighteenFeeds :
    ((fed [0xAA, 0x55]).Inv ∧ (fed [0xAA, 0x55]).Ready ∧ (fed [0xAA, 0x55]).SinksQuiet ∧
      (fed [0xAA, 0x55]).session.detectState = .controllerStatus ∧ (List.replicate 18 (0x04 : Byte)).length = 18) ∧
    ((fed [0xAA, 0xE8]).Inv ∧ (fed [0xAA, 0xE8]).Ready ∧ (fed [0xAA, 0xE8]).SinksQuiet ∧
      (fed [0xAA, 0xE8]).session.detectState = .idExt ∧ (List.replicate 13 (0x00 : Byte)).length = 13) :=
  ⟨⟨inv_of_check (by decide +kernel), by decide⟩, ⟨inv_of_check (by decide +kernel), by decide⟩⟩

/-- Every drop is met, each in a ready state of the invariant. -/
theorem witness_DropsAreSilent :
    (live.Inv ∧ live.Ready ∧ dropOf 0x55 live.session = some .ignored) ∧
    ((fed [0xAA]).Inv ∧ dropOf 0x00 (fed [0xAA]).session = some .discardUnrecognized ∧
      dropOf 0xC9 (fed [0xAA]).session = some .dropDlcInvalid) ∧
    (beforeEof.Inv ∧ dropOf 0xAA beforeEof.session = some .dropBadTerminator) ∧
    ((fed [0xAA, 0xC0, 0x00, 0x08]).Inv ∧ (fed [0xAA, 0xC0, 0x00, 0x08]).Ready ∧
      dropOf 0x55 (fed [0xAA, 0xC0, 0x00, 0x08]).session = some .dropIdRange) ∧
    ((fed [0xAA, 0x55]).Inv ∧ (fed [0xAA, 0x55]).Ready ∧
      dropOf 0x12 (fed [0xAA, 0x55]).session = some .dropBadDiscriminator) ∧
    (beforeChecksum.Inv ∧ beforeChecksum.Ready ∧ dropOf 0x0A beforeChecksum.session = some .dropChecksum) := by
  refine ⟨⟨inv_of_check ?_, ?_⟩, ⟨inv_of_check ?_, ?_⟩, ⟨inv_of_check ?_, ?_⟩, ⟨inv_of_check ?_, ?_⟩,
    ⟨inv_of_check ?_, ?_⟩, ⟨inv_of_check ?_, ?_⟩⟩ <;> decide +kernel

theorem witness_FrameInfoKeepsWaiting :
    (fed [0xAA]).Ready ∧ (fed [0xAA]).session.detectState = .frameInfo ∧ (fed [0xAA]).session.cursor = 1 ∧
    ∀ b ∈ ([0xAA, 0x00, 0xBF, 0x54, 0x56] : List Byte), b ≠ 0x55 ∧ b.toNat < 192 := by decide

theorem witness_ReceptionAlwaysCompletes :
    receives (.configMsg 0 0 0 0 0 1 [0, 0, 0, 0] 0x13) = true ∧ live.Inv ∧ live.Ready ∧ live.SinksQuiet :=
  ⟨rfl, inv_of_check (by decide), by decide⟩

/-- For the statements about a step (`TraceOnlyGrows` and `BufferBoundsIsNeverRaised` too): a step from the invariant that
completes. -/
theorem witness_StepKeepsInvariant :
    ({ beforeEof with input := [⟨.host, [0x01, 0x55], false⟩] } : State).Inv ∧
    ∃ t, step { beforeEof with input := [⟨.host, [0x01, 0x55], false⟩] } = .next t :=
  ⟨inv_of_check (by decide +kernel), next_of_completes (by decide +kernel)⟩

/-- The state after RX-2: its trace holds a valid frame. -/
theorem witness_DeliveredFramesAreValid :
    (fed [0xAA, 0xC0, 0x23, 0x01, 0x55]).Inv ∧
    (fed [0xAA, 0xC0, 0x23, 0x01, 0x55]).trace = [.frameEvent ⟨.standard, 0x123, 0, []⟩] ∧
    frameValid (.frameEvent ⟨.standard, 0x123, 0, []⟩) := by
  refine ⟨inv_of_check (by decide +kernel), by decide +kernel, ?_⟩
  unfold frameValid; decide

theorem witness_OnlyInitWritesSinkBits :
    (∀ sinks, Instr.deinit ≠ .init sinks) ∧ ∃ t, exec .deinit live = .next t :=
  ⟨by simp, next_of_completes (by decide)⟩

theorem witness_OnlyLifecycleOperationsWriteLife :
    (∃ t, exec .deinit live = .next t) ∧ receives .deinit = false ∧ (∃ t, exec (.feed 0xAA) live = .next t) ∧
    Instr.feed 0xAA ≠ .deinit :=
  ⟨next_of_completes (by decide), rfl, next_of_completes (by decide), by decide⟩

theorem witness_UnwrittenBytesAreUnobservable :
    beforeEof.Inv ∧ ∀ sinks, Instr.feed 0x55 ≠ .init sinks :=
  ⟨inv_of_check (by decide +kernel), by simp⟩

/-- PROG-5: ENC_CANCEL in the middle of a frame. -/
theorem witness_EncodersMayBeInterleaved :
    live.Ready ∧ live.SinksQuiet ∧
    (∀ i ∈ [Instr.feed 0xAA, .feed 0xC1, .encCancel, .feed 0x01], isEncoder i = true ∨ ∃ b, i = .feed b) ∧
    ∃ t, runAll [.feed 0xAA, .feed 0xC1, .encCancel, .feed 0x01] live = .next t :=
  ⟨by decide, by decide, by simp [isEncoder], next_of_completes (by decide)⟩

theorem witness_WireMessagesAreTheirFeeds : (Instr.ctrlDlcInvalid 0xC9).port = .wire := rfl

theorem witness_AssemblyFormsExpand : ([0x42] : List Byte).length ≤ 8 := by decide

/-- For `StandardDataFrameReceived`, `ExtendedDataFrameReceived` and `StatusReportReceived`: data of 0 and of 8 bytes, 13
reserved bytes, an idle ready Session with quiet sinks. -/
theorem witness_idle_live :
    live.Ready ∧ live.session.Idle ∧ live.NextSinkQuiet ∧ ([] : List Byte).length ≤ 8 ∧
    ([1, 2, 3, 4, 5, 6, 7, 8] : List Byte).length ≤ 8 ∧ (List.replicate 13 (0 : Byte)).length = 13 := by decide

/-- ST-3: index 10 changed to 01. -/
theorem witness_ChangedStatusPayloadIsDropped :
    ([0x00, 0x03, 0x02, 0, 0, 0, 0, 0, 0, 0, 0, 0, 0, 0, 0, 0] : List Byte).length = 16 ∧
    ([0x00, 0x03, 0x02, 0, 0, 0, 0, 0, 0, 0, 0, 0, 0, 0, 0, 0] : List Byte)[7]? ≠ some 0x01 ∧
    live.Ready ∧ live.session.Idle ∧ live.NextSinkQuiet := by decide

/-- The last clause: CAN-1's and CFG-1's remaining bytes hold no AA; a state with the abandoned message in its buffer. -/
theorem witness_CommandMessagesAreAbandoned :
    live.Ready ∧ live.session.Idle ∧ (∀ b ∈ (encode .filterCancel).drop 3, b ≠ 0xAA) ∧
    (∀ b ∈ (encode (.configMsg 0x03 0x01 0 0 0 0x01 [0, 0, 0, 0] 0x17)).drop 3, b ≠ 0xAA) ∧
    (∀ b ∈ (encode (.filterEnable [0x100] 0x12)).drop 3, b ≠ 0xAA) ∧
    (∀ b ∈ (encode (.statusPathOtherDisc 0x05)).drop 3, b ≠ 0xAA) ∧ (0x05 : Byte) ≠ 0x04 := by decide

theorem witness_ReservedFrameInfoBytesReceived :
    live.Ready ∧ live.session.Idle ∧ (192 ≤ (0xFF : Byte).toNat ∧ 8 < (0xFF : Byte).toNat % 16) ∧
    (192 ≤ (0xC9 : Byte).toNat ∧ 8 < (0xC9 : Byte).toNat % 16) ∧ ((0x00 : Byte).toNat < 192 ∧ (0x00 : Byte) ≠ 0x55) := by
  decide

theorem witness_EncodedFrameDecodesToItself :
    (8 : Byte).toNat ≤ 8 ∧ ([1, 2, 3, 4, 5, 6, 7, 8] : List Byte).length = 8 ∧ (0x7FF : Word32).toNat ≤ idMax .standard ∧
    (0x1FFFFFFF : Word32).toNat ≤ idMax .extended ∧ live.Ready ∧ live.session.byteSinkPresent = true ∧
    (∃ t, exec (.encFrame .standard 0x7FF 8 [1, 2, 3, 4, 5, 6, 7, 8]) live = .next t) ∧ live.session.Idle ∧
    live.session.frameSinkPresent = true ∧ live.NextSinkQuiet :=
  ⟨by decide, by decide, by decide, by decide, by decide, by decide, next_of_completes (by decide), by decide, by decide,
    by decide⟩

theorem witness_HostRecordDecodesToItsInstruction :
    (Instr.encFilter [0x123]).port = .host ∧ (Instr.encFilter [0x123]).wf = true ∧
    (Instr.illFormedRecord [0x08]).port = .host ∧ (Instr.illFormedRecord [0x08]).wf = true := by decide

theorem witness_IllFormedRecordsAreRefused :
    ({ live with input := [⟨.host, [0x08], false⟩] } : State).input = ⟨.host, [0x08], false⟩ :: [] ∧
    recordWellFormed [0x08] = false ∧ recordWellFormed [0x05] = true ∧ live.Ready ∧ live.SinksQuiet := by decide

theorem witness_WireMessageDecodesToItsRow :
    (Instr.dataFrameStd true 0xFFFF [0x55] 0xAA).port = .wire ∧ (Instr.dataFrameStd true 0xFFFF [0x55] 0xAA).wf = true ∧
    Instr.dataFrameStd true 0xFFFF [0x55] 0xAA ≠ .statusPathOtherDisc 0x10 ∧
    Instr.dataFrameStd true 0xFFFF [0x55] 0xAA ≠ .statusPathOtherDisc 0x12 ∧
    (Instr.statusPathOtherDisc 0x10).wf = true := by decide

theorem witness_SerialBytesAreSplitExactly :
    decodeWire [0xAA, 0xC0, 0x23, 0x01, 0x55, 0x00] = some (.dataFrameStd false 0x123 [] 0x55, [0x00]) ∧
    decodeWire [0x00] = some (.feed 0x00, []) := by decide

theorem witness_ChecksumIsTheSumModulo256 : 2 ≤ 19 ∧ 19 ≤ (List.replicate 20 (0 : Byte)).length := by decide

/-- Nothing presented; a host record; serial bytes with some left; an empty run of serial bytes. -/
theorem witness_StepRunsThePresentedInstruction :
    live.input = [] ∧ decode .host [0x05] = some (.encCancel, []) ∧
    decode .wire [0x00, 0x01] = some (.feed 0x00, [0x01]) ∧ decode .wire [] = none := by decide

theorem witness_StepRunsAnEncodedInstruction :
    Instr.filterCancel.wf = true ∧ Instr.filterCancel.port = .wire ∧ (Instr.feed 0).wf = true ∧
    ({ live with input := [presentation .filterCancel] } : State).input = ⟨.wire, encode .filterCancel, false⟩ :: [] := by
  decide

theorem witness_StepOnSerialBytesIsFeeds :
    ([0xAA] : List Byte) ≠ [] ∧
    ({ live with input := [⟨.wire, [0xAA], false⟩] } : State).input = ⟨.wire, [0xAA], false⟩ :: [] := by decide

end Sys2Proof.Tests
end

section
/-! The decoder reads back what the encoder writes (30_encoding.md R73 to R79, R89), and the step runs what the decoder
reads (00_scope.md R5). -/

namespace Sys2Proof

/-! ### Host records -/

@[simp] theorem kindOperand_kindByte (kind : IdKind) : kindOperand (kindByte kind) = .ok kind := by
  cases kind <;> rfl

@[simp] theorem hostInit_sinksByte (sinks : Sinks) : hostInit [sinksByte sinks] = .ok (.init sinks) := by
  obtain ⟨_ | _, _ | _, _ | _⟩ := sinks <;> rfl

/-- A count of at most 255 survives its byte (R77, R89). -/
theorem toNat_countByte {n : Nat} (h : n ≤ 255) : (BitVec.ofNat 8 n).toNat = n := by
  rw [BitVec.toNat_ofNat, Nat.mod_eq_of_lt (by omega)]

theorem hostEncFrame_le32 (kind : IdKind) (id : Word32) (dlc : Byte) (data : List Byte) (h : data.length = 8) :
    hostEncFrame (kindByte kind :: (le32 id ++ dlc :: data)) = .ok (.encFrame kind id dlc data) := by
  simp [hostEncFrame, le32, h, word32_le32, Except.map]

theorem hostEncConfig_le32 (baud kind : Byte) (filterId maskId : Word32) (mode : Byte) :
    hostEncConfig (baud :: kind :: (le32 filterId ++ le32 maskId ++ [mode])) =
      .ok (.encConfig baud kind filterId maskId mode) := by
  simp [hostEncConfig, le32, word32_le32]

theorem hostEncFilter_le32 (ids : List Word32) (h : ids.length ≤ 255) :
    hostEncFilter (BitVec.ofNat 8 ids.length :: ids.flatMap le32) = .ok (.encFilter ids) := by
  simp only [hostEncFilter, flatMap_le32_length, toNat_countByte h, words32_flatMap_le32, if_true]

/-- A record that is not well formed is the row ill-formed_host_record (R90). -/
theorem decodeHost_of_not_wellFormed {record : List Byte} (h : recordWellFormed record = false) :
    decodeHost record = .illFormedRecord record := by
  cases hop : hostOperation record with
  | ok i => simp [(recordWellFormed_iff record).2 ⟨i, hop⟩] at h
  | error e => simp [decodeHost, hop]

theorem decodeHost_of_ok {record : List Byte} {i : Instr} (h : hostOperation record = .ok i) : decodeHost record = i := by
  simp [decodeHost, h]

/-- R89: the record of a well-formed host instruction decodes to it. -/
theorem decodeHost_encode {i : Instr} (hp : i.port = .host) (hwf : i.wf = true) : decodeHost (encode i) = i := by
  cases i with
  | illFormedRecord record => exact decodeHost_of_not_wellFormed (by simpa [Instr.wf, encode] using hwf)
  | feed b => rfl
  | encFrame kind id dlc data =>
    exact decodeHost_of_ok (by
      simpa [hostOperation, encode] using hostEncFrame_le32 kind id dlc data (by simpa [Instr.wf] using hwf))
  | encConfig baud kind filterId maskId mode => exact decodeHost_of_ok (hostEncConfig_le32 baud kind filterId maskId mode)
  | encFilter ids => exact decodeHost_of_ok (hostEncFilter_le32 ids (by simpa [Instr.wf] using hwf))
  | encCancel => rfl
  | init sinks => exact decodeHost_of_ok (hostInit_sinksByte sinks)
  | deinit => rfl
  | _ => cases hp

/-! ### Wire messages -/

theorem wireDataFrame_standard (bit4 : Bool) (id : Word16) (data : List Byte) (eof : Byte) (rest : List Byte)
    (h : data.length ≤ 8) :
    wireDataFrame (wireControlByte .standard bit4 data.length) (le16 id ++ data ++ [eof] ++ rest) =
      some (.dataFrameStd bit4 id data eof, rest) := by
  simp [wireDataFrame, dlcField_wireControlByte _ _ _ h, kindField_wireControlByte _ _ _ h,
    bit4Field_wireControlByte _ _ _ h, le16, word16_le16, h]

theorem wireDataFrame_extended (bit4 : Bool) (id : Word32) (data : List Byte) (eof : Byte) (rest : List Byte)
    (h : data.length ≤ 8) :
    wireDataFrame (wireControlByte .extended bit4 data.length) (le32 id ++ data ++ [eof] ++ rest) =
      some (.dataFrameExt bit4 id data eof, rest) := by
  simp [wireDataFrame, dlcField_wireControlByte _ _ _ h, kindField_wireControlByte _ _ _ h,
    bit4Field_wireControlByte _ _ _ h, le32, word32_le32, h]

theorem wireDataFrame_dlcInvalid {ctrl : Byte} (rest : List Byte) (h : 8 < (dlcField ctrl).toNat) :
    wireDataFrame ctrl rest = some (.ctrlDlcInvalid ctrl, rest) := by
  simp [wireDataFrame, h]

theorem wireStatusReport_append (rsv0 rxErr txErr : Byte) (rsv1 : List Byte) (sum : Byte) (rest : List Byte)
    (h : rsv1.length = 13) :
    wireStatusReport ([rsv0, rxErr, txErr] ++ rsv1 ++ [sum] ++ rest) =
      some (.statusReport rsv0 rxErr txErr rsv1 sum, rest) := by
  simp [wireStatusReport, ← h]

theorem wireConfigMsg_append (baud kind : Byte) (filterId maskId : Word32) (mode const : Byte) (rsv : List Byte)
    (sum : Byte) (rest : List Byte) (h : rsv.length = 4) :
    wireConfigMsg ([baud, kind] ++ le32 filterId ++ le32 maskId ++ [mode, const] ++ rsv ++ [sum] ++ rest) =
      some (.configMsg baud kind filterId maskId mode const rsv sum, rest) := by
  simp [wireConfigMsg, le32, word32_le32, ← h]

/-- An enable message is told from the cancel message by a nonzero count or another fifth byte (R77, R78). -/
theorem wireFilter_append (ids : List Word32) (sum : Byte) (rest : List Byte) (hn : ids.length ≤ 255)
    (hc : ¬ (ids = [] ∧ sum = 0x10)) :
    wireFilter (BitVec.ofNat 8 ids.length :: (ids.flatMap le32 ++ [sum] ++ rest)) =
      some (.filterEnable ids sum, rest) := by
  have hcount : BitVec.ofNat 8 ids.length = 0 ↔ ids = [] := by
    rw [← BitVec.toNat_inj, toNat_countByte hn]; simp
  have hlen := flatMap_le32_length ids
  have hdrop : (ids.flatMap le32 ++ [sum] ++ rest).drop (4 * ids.length) = sum :: rest := by
    rw [List.append_assoc, ← hlen, List.drop_left]; rfl
  have htake : (ids.flatMap le32 ++ [sum] ++ rest).take (4 * ids.length) = ids.flatMap le32 := by
    rw [List.append_assoc, ← hlen, List.take_left]
  simp only [wireFilter, toNat_countByte hn, hdrop, htake, words32_flatMap_le32, hcount, if_neg hc]

theorem toNat_dlcField (b : Byte) : (dlcField b).toNat = (b &&& 0x0F).toNat := by
  rw [(controlByte_fields b).2.1, BitVec.toNat_and]
  exact (Nat.and_two_pow_sub_one_eq_mod b.toNat 4).symm

theorem wireStatusPath_configDisc {bytes : List Byte} {r : Instr × List Byte} (h : wireConfigMsg bytes = some r) :
    wireStatusPath (0x12 :: bytes) = some r := by
  simp [wireStatusPath, h]

theorem wireStatusPath_filterDisc {bytes : List Byte} {r : Instr × List Byte} (h : wireFilter bytes = some r) :
    wireStatusPath (0x10 :: bytes) = some r := by
  simp [wireStatusPath, h]

theorem wireStatusPath_otherDisc {disc : Byte} (rest : List Byte) (h04 : disc ≠ 0x04) (h10 : disc ≠ 0x10)
    (h12 : disc ≠ 0x12) : wireStatusPath (disc :: rest) = some (.statusPathOtherDisc disc, rest) := by
  rw [wireStatusPath, if_neg h04, if_neg h12, if_neg h10]

theorem wireMessage_control {ctrl : Byte} (rest : List Byte) (hc : isControlByte ctrl = true) :
    wireMessage (0xAA :: ctrl :: rest) = wireDataFrame ctrl rest := by
  have h55 : ctrl ≠ 0x55 := by rintro rfl; exact absurd hc (by decide)
  rw [wireMessage, if_pos rfl, if_neg h55, if_pos hc]

/-- Every wire row is read whatever follows it (R73 to R79), but for a bare discriminator 0x10 or 0x12, which can be the
start of a longer row. -/
theorem wireMessage_encode_append {i : Instr} (hp : i.port = .wire) (hwf : i.wf = true)
    (h10 : i ≠ .statusPathOtherDisc 0x10) (h12 : i ≠ .statusPathOtherDisc 0x12) (rest : List Byte) :
    wireMessage (encode i ++ rest) = some (i, rest) := by
  cases i with
  | dataFrameStd bit4 id data eof =>
    have hlen : data.length ≤ 8 := by simpa [Instr.wf] using hwf
    exact (wireMessage_control _ (isControlByte_wireControlByte _ _ _ hlen)).trans
      (wireDataFrame_standard bit4 id data eof rest hlen)
  | dataFrameExt bit4 id data eof =>
    have hlen : data.length ≤ 8 := by simpa [Instr.wf] using hwf
    exact (wireMessage_control _ (isControlByte_wireControlByte _ _ _ hlen)).trans
      (wireDataFrame_extended bit4 id data eof rest hlen)
  | statusReport rsv0 rxErr txErr rsv1 sum =>
    exact wireStatusReport_append rsv0 rxErr txErr rsv1 sum rest (by simpa [Instr.wf] using hwf)
  | configMsg baud kind filterId maskId mode const rsv sum =>
    exact wireStatusPath_configDisc
      (wireConfigMsg_append baud kind filterId maskId mode const rsv sum rest (by simpa [Instr.wf] using hwf))
  | filterEnable ids sum =>
    obtain ⟨hn, hc⟩ : ids.length ≤ 255 ∧ ¬ (ids = [] ∧ sum = 0x10) := by
      simpa [Instr.wf, Config.maxFilterIds, imp_iff_not_or] using hwf
    exact wireStatusPath_filterDisc (wireFilter_append ids sum rest hn hc)
  | filterCancel => rfl
  | ctrlDlcInvalid ctrl =>
    obtain ⟨hc, hd⟩ : isControlByte ctrl = true ∧ 8 < (dlcField ctrl).toNat := by
      simpa [Instr.wf, isControlByte, toNat_dlcField] using hwf
    exact (wireMessage_control rest hc).trans (wireDataFrame_dlcInvalid rest hd)
  | frameInfoUnrecognized b =>
    obtain ⟨h55, hc⟩ : b ≠ 0x55 ∧ isControlByte b = false := by simpa [Instr.wf, isControlByte] using hwf
    change wireMessage (0xAA :: b :: rest) = _
    rw [wireMessage, if_pos rfl, if_neg h55, if_neg (by simp [hc])]
  | statusPathOtherDisc disc =>
    exact wireStatusPath_otherDisc rest (by simpa [Instr.wf] using hwf) (by rintro rfl; exact h10 rfl)
      (by rintro rfl; exact h12 rfl)
  | _ => cases hp

/-- With nothing after it a bare discriminator is its own three-byte row (R87). -/
theorem wireMessage_encode {i : Instr} (hp : i.port = .wire) (hwf : i.wf = true) :
    wireMessage (encode i) = some (i, []) := by
  by_cases hbare : i = .statusPathOtherDisc 0x10 ∨ i = .statusPathOtherDisc 0x12
  · obtain rfl | rfl := hbare <;> rfl
  · obtain ⟨h10, h12⟩ := not_or.1 hbare
    simpa using wireMessage_encode_append hp hwf h10 h12 []

theorem decodeWire_of_wireMessage {bytes rest : List Byte} {i : Instr} (h : wireMessage bytes = some (i, rest)) :
    decodeWire bytes = some (i, rest) := by
  cases bytes with
  | nil => cases h
  | cons b bs => simp [decodeWire, h]

/-- Every well-formed instruction is what its bytes decode to at its port (R73 to R79, R89). -/
theorem decode_encode {i : Instr} (hwf : i.wf = true) : decode i.port (encode i) = some (i, []) := by
  cases hp : i.port with
  | host => simp [decode, decodeHost_encode hp hwf]
  | wire => exact decodeWire_of_wireMessage (wireMessage_encode hp hwf)

namespace Machine

/-! ### The step -/

theorem step_of_input_nil {s : State} (h : s.input = []) : step s = .next s := by
  simp [step, fetch, h]

theorem step_of_decode {s : State} {p : Pending} {rest : List Pending} {i : Instr} {left : List Byte}
    (hin : s.input = p :: rest) (hdec : decode p.port p.bytes = some (i, left)) :
    step s = exec i { s with input := requeue p left rest, overlapping := p.overlaps } := by
  simp [step, fetch, hin, hdec]

theorem step_of_decode_none {s : State} {p : Pending} {rest : List Pending} (hin : s.input = p :: rest)
    (hdec : decode p.port p.bytes = none) : step s = .next { s with input := rest } := by
  simp [step, fetch, hin, hdec]

end Machine

/-- Settles O56: one lemma on the step per case of what is presented. -/
theorem stepRunsThePresentedInstruction : Obligations.StepRunsThePresentedInstruction :=
  ⟨fun _ => Machine.step_of_input_nil, fun _ _ _ _ _ => Machine.step_of_decode, fun _ _ _ => Machine.step_of_decode_none⟩

/-- Settles O57: the bytes at the head decode to the instruction with nothing left, so the head is taken off. -/
theorem stepRunsAnEncodedInstruction : Obligations.StepRunsAnEncodedInstruction :=
  fun _ _ _ _ hwf hin => Machine.step_of_decode hin (decode_encode hwf)

end Sys2Proof
end

section
/-! The state across an operation (10_state.md): its frame, the invariant of R36 across a step, and what the unwritten
buffer bytes read as (R23). -/

namespace Sys2Proof

open Spec

namespace Machine

/-! ### What an instruction runs -/

theorem andThen_next_right (o : Out) : andThen o .next = o := by
  cases o <;> rfl

/-- FEED and every wire row are the FEEDS of their bytes (R92). -/
theorem exec_of_receives {i : Instr} (hi : receives i = true) (s : State) : exec i s = feedBytes (serialBytes i) s := by
  cases i with
  | feed b => exact (andThen_next_right (feedByte b s)).symm
  | encFrame | encConfig | encFilter | encCancel | init | deinit | illFormedRecord => cases hi
  | _ => rfl

theorem serialBytes_ne_nil {i : Instr} (hi : receives i = true) : serialBytes i ≠ [] := by
  cases i with
  | encFrame | encConfig | encFilter | encCancel | init | deinit | illFormedRecord => cases hi
  | _ => exact List.cons_ne_nil _ _

/-- Every encoder operation is the template of R110 for some operand check and some bytes. -/
theorem exec_of_isEncoder {i : Instr} (hi : isEncoder i = true) :
    ∃ valid bytes, ∀ s, exec i s = encoderOp valid bytes s := by
  cases i with
  | encFrame | encConfig | encFilter | encCancel => exact ⟨_, _, fun _ => rfl⟩
  | _ => cases hi

theorem instr_cases (i : Instr) :
    receives i = true ∨ isEncoder i = true ∨ (∃ sinks, i = .init sinks) ∨ i = .deinit ∨
      ∃ record, i = .illFormedRecord record := by
  cases i with
  | encFrame | encConfig | encFilter | encCancel => exact .inr (.inl rfl)
  | init sinks => exact .inr (.inr (.inl ⟨sinks, rfl⟩))
  | deinit => exact .inr (.inr (.inr (.inl rfl)))
  | illFormedRecord record => exact .inr (.inr (.inr (.inr ⟨record, rfl⟩)))
  | _ => exact .inl rfl

/-! ### What an instruction can do when it answers a next state -/

theorem execInit_eq_next {sinks : Sinks} {s t : State} (h : execInit sinks s = .next t) :
    s.overlapping = false ∧ s.session.life ≠ .live ∧ s.sinkCallInProgress = false ∧
      t = initResult sinks (drawInit s).1 (drawInit s).2 := by
  obtain ⟨ho, ⟨-, hc, -⟩ | ⟨hp, hbody, ⟨-, hl⟩ | ⟨hc, -⟩⟩⟩ := guarded_eq_next h
  · cases hc
  · exact ⟨ho, hl, hp, (Host.Outcome.next.inj hbody).symm⟩
  · exact absurd rfl hc

theorem execDeinit_eq_next {s t : State} (h : execDeinit s = .next t) :
    s.Ready ∧ t = (s.returning none).withSession { s.session with life := .released } := by
  obtain ⟨ho, ⟨-, hc, -⟩ | ⟨hp, hbody, ⟨hc, -⟩ | ⟨-, hl⟩⟩⟩ := guarded_eq_next h
  · cases hc
  · cases hc
  · exact ⟨⟨hl, ho, hp⟩, (Host.Outcome.next.inj hbody).symm⟩

/-- The four things an instruction can do: FEEDS of its bytes, the encoder's template, INIT, DEINIT. -/
theorem exec_eq_next {i : Instr} {s t : State} (h : exec i s = .next t) :
    (receives i = true ∧ feedBytes (serialBytes i) s = .next t) ∨
    (isEncoder i = true ∧ ∃ valid bytes, encoderOp valid bytes s = .next t) ∨
    (∃ sinks, i = .init sinks ∧ execInit sinks s = .next t) ∨
    (i = .deinit ∧ execDeinit s = .next t) := by
  obtain hi | hi | ⟨sinks, rfl⟩ | rfl | ⟨record, rfl⟩ := instr_cases i
  · exact .inl ⟨hi, exec_of_receives hi s ▸ h⟩
  · obtain ⟨valid, bytes, hrun⟩ := exec_of_isEncoder hi
    exact .inr (.inl ⟨hi, valid, bytes, hrun s ▸ h⟩)
  · exact .inr (.inr (.inl ⟨sinks, rfl, h⟩))
  · exact .inr (.inr (.inr ⟨rfl, h⟩))
  · cases h

/-- An encoder operation reads the Session and writes none of it (R115). -/
theorem encoderOp_keeps_session {valid : Bool} {bytes : List Byte} {s t : State}
    (h : encoderOp valid bytes s = .next t) :
    t.session = s.session ∧ t.sinkCallInProgress = s.sinkCallInProgress := by
  obtain ⟨-, ⟨-, rfl⟩ | ⟨hl, hp, ⟨-, rfl⟩ | ⟨-, hsend⟩⟩⟩ := encoderOp_eq_next h
  · exact ⟨rfl, rfl⟩
  · exact ⟨rfl, rfl⟩
  · obtain ⟨-, rfl⟩ | ⟨-, -, rfl⟩ := sendBytes_eq_next (s := s.returning none) hl hsend
    · exact ⟨rfl, rfl⟩
    · exact ⟨rfl, hp.symm⟩

/-! ### The frame of reception -/

/-- What reception leaves as it was, and that the trace gains events only. -/
structure ReceptionFrame (s t : State) : Prop where
  life : t.session.life = s.session.life
  frameSink : t.session.frameSinkPresent = s.session.frameSinkPresent
  statusSink : t.session.statusSinkPresent = s.session.statusSinkPresent
  byteSink : t.session.byteSinkPresent = s.session.byteSinkPresent
  overlapping : t.overlapping = s.overlapping
  sinkCallInProgress : t.sinkCallInProgress = s.sinkCallInProgress
  input : t.input = s.input
  initAnswers : t.initAnswers = s.initAnswers
  byteSinkAnswers : t.byteSinkAnswers = s.byteSinkAnswers
  draws : t.draws = s.draws
  trace : ∃ events, t.trace = s.trace ++ events ∧ ∀ e ∈ events, isEvent e = true

theorem ReceptionFrame.refl (s : State) : ReceptionFrame s s :=
  ⟨rfl, rfl, rfl, rfl, rfl, rfl, rfl, rfl, rfl, rfl, [], by simp⟩

theorem ReceptionFrame.trans {s t u : State} (h : ReceptionFrame s t) (h' : ReceptionFrame t u) :
    ReceptionFrame s u where
  life := h'.life.trans h.life
  frameSink := h'.frameSink.trans h.frameSink
  statusSink := h'.statusSink.trans h.statusSink
  byteSink := h'.byteSink.trans h.byteSink
  overlapping := h'.overlapping.trans h.overlapping
  sinkCallInProgress := h'.sinkCallInProgress.trans h.sinkCallInProgress
  input := h'.input.trans h.input
  initAnswers := h'.initAnswers.trans h.initAnswers
  byteSinkAnswers := h'.byteSinkAnswers.trans h.byteSinkAnswers
  draws := h'.draws.trans h.draws
  trace := by
    obtain ⟨first, ht, hfirst⟩ := h.trace
    obtain ⟨second, hu, hsecond⟩ := h'.trace
    exact ⟨first ++ second, by rw [hu, ht, List.append_assoc],
      fun e he => (List.mem_append.1 he).elim (hfirst e) (hsecond e)⟩

@[simp] theorem isEvent_entry (e : Event) : isEvent e.entry = true := by
  cases e <;> rfl

theorem feedByte_receptionFrame {b : Byte} {s t : State} (h : feedByte b s = .next t) :
    ReceptionFrame s t ∧ t.returned = none := by
  obtain ⟨⟨-, -, hp⟩, ses', ev, hrec, hout⟩ := feedByte_eq_next h
  obtain ⟨hlife, hframe, hstatus, hbyte, -⟩ := receive_frame hrec
  obtain ⟨-, rfl⟩ | ⟨e, -, -, -, rfl⟩ := hout
  · exact ⟨⟨hlife, hframe, hstatus, hbyte, rfl, rfl, rfl, rfl, rfl, rfl, [], by simp⟩, rfl⟩
  · exact ⟨⟨hlife, hframe, hstatus, hbyte, rfl, hp.symm, rfl, rfl, rfl, rfl, [e.entry], rfl, by simp⟩, rfl⟩

theorem feedBytes_receptionFrame {bytes : List Byte} {s t : State} (h : feedBytes bytes s = .next t)
    (hr : s.returned = none ∨ bytes ≠ []) : ReceptionFrame s t ∧ t.returned = none := by
  induction bytes generalizing s with
  | nil =>
    cases h
    exact ⟨.refl _, hr.resolve_right fun hne => hne rfl⟩
  | cons b bytes ih =>
    obtain ⟨u, hb, hrest⟩ := andThen_eq_next h
    obtain ⟨hsu, hu⟩ := feedByte_receptionFrame hb
    obtain ⟨hut, ht⟩ := ih hrest (.inl hu)
    exact ⟨hsu.trans hut, ht⟩

theorem serialBytes_receptionFrame {i : Instr} {s t : State} (hi : receives i = true)
    (h : feedBytes (serialBytes i) s = .next t) : ReceptionFrame s t ∧ t.returned = none :=
  feedBytes_receptionFrame h (.inr (serialBytes_ne_nil hi))

/-! ### The invariant across a step -/

theorem State.Inv.of_idle {s : State} (hm : Memory.wf s.session.rxBuffer.cells) (hp : s.sinkCallInProgress = false)
    (h : s.session.Idle) : s.Inv :=
  ⟨hm, hp, fun _ => h.table⟩

/-- With no Session live the table of R36 asks nothing. -/
theorem State.Inv.of_not_live {s : State} (hm : Memory.wf s.session.rxBuffer.cells)
    (hp : s.sinkCallInProgress = false) (h : s.session.life ≠ .live) : s.Inv :=
  ⟨hm, hp, fun hl => absurd hl h⟩

/-- The invariant speaks of the Session and of the sink-call mark only. -/
theorem State.Inv.congr {s t : State} (hi : s.Inv) (hs : t.session = s.session)
    (hp : t.sinkCallInProgress = s.sinkCallInProgress) : t.Inv := by
  rw [State.Inv, hs, hp]
  exact hi

theorem feedByte_keeps_inv {b : Byte} {s t : State} (hi : s.Inv) (h : feedByte b s = .next t) : t.Inv := by
  obtain ⟨hm, hp, hlive⟩ := hi
  obtain ⟨⟨hl, -, -⟩, ses', ev, hrec, hout⟩ := feedByte_eq_next h
  obtain ⟨htab, hw, hz⟩ := hlive hl
  obtain ⟨ses'', ev', hrec', hm', htable'⟩ := receive_table b hm htab hw hz
  obtain ⟨rfl, rfl⟩ := Prod.mk.inj (Except.ok.inj (hrec.symm.trans hrec'))
  obtain ⟨-, rfl⟩ | ⟨e, -, -, -, rfl⟩ := hout
  · exact ⟨hm', hp, fun _ => htable'⟩
  · exact ⟨hm', rfl, fun _ => htable'⟩

theorem feedBytes_keeps_inv {bytes : List Byte} {s t : State} (hi : s.Inv) (h : feedBytes bytes s = .next t) :
    t.Inv := by
  induction bytes generalizing s with
  | nil =>
    cases h
    exact hi
  | cons b bytes ih =>
    obtain ⟨u, hb, hrest⟩ := andThen_eq_next h
    exact ih (feedByte_keeps_inv hi hb) hrest

theorem initResult_inv {sinks : Sinks} {ok : Bool} {s : State} (hm : Memory.wf s.session.rxBuffer.cells)
    (hp : s.sinkCallInProgress = false) : (initResult sinks ok s).Inv := by
  cases ok with
  | true => exact .of_idle Memory.wf_nil hp ⟨rfl, rfl, rfl, rfl, rfl, rfl, rfl⟩
  | false => exact .of_not_live hm hp (by simp [initResult])

theorem exec_keeps_inv {i : Instr} {s t : State} (hi : s.Inv) (h : exec i s = .next t) : t.Inv := by
  obtain ⟨-, hfeeds⟩ | ⟨-, valid, bytes, henc⟩ | ⟨sinks, -, hinit⟩ | ⟨-, hdeinit⟩ := exec_eq_next h
  · exact feedBytes_keeps_inv hi hfeeds
  · obtain ⟨hs, hp⟩ := encoderOp_keeps_session henc
    exact hi.congr hs hp
  · obtain ⟨hm, hp, -⟩ := hi
    obtain ⟨-, -, -, rfl⟩ := execInit_eq_next hinit
    exact initResult_inv hm hp
  · obtain ⟨hm, hp, -⟩ := hi
    obtain ⟨-, rfl⟩ := execDeinit_eq_next hdeinit
    exact .of_not_live hm hp (by simp)

/-- A step runs an instruction in the same state but for the input queue and the overlap mark, or takes an empty
presentation off the queue, or does nothing. -/
theorem step_eq_next {s t : State} (h : step s = .next t) :
    t = s ∨ (∃ rest, t = { s with input := rest }) ∨
    ∃ i rest overlaps, exec i { s with input := rest, overlapping := overlaps } = .next t := by
  cases hin : s.input with
  | nil => exact .inl (Host.Outcome.next.inj (step_of_input_nil hin ▸ h)).symm
  | cons p rest =>
    cases hdec : decode p.port p.bytes with
    | none => exact .inr (.inl ⟨rest, (Host.Outcome.next.inj (step_of_decode_none hin hdec ▸ h)).symm⟩)
    | some r => exact .inr (.inr ⟨r.1, requeue p r.2 rest, p.overlaps, step_of_decode hin hdec ▸ h⟩)

theorem step_keeps_inv {s t : State} (hi : s.Inv) (h : step s = .next t) : t.Inv := by
  obtain rfl | ⟨rest, rfl⟩ | ⟨i, rest, overlaps, hexec⟩ := step_eq_next h
  · exact hi
  · exact hi.congr rfl rfl
  · exact exec_keeps_inv (s := { s with input := rest, overlapping := overlaps }) hi hexec

/-! ### Another content of the unwritten buffer bytes -/

theorem andThen_mapNext {f : State → State} {o : Out} {k k' : State → Out}
    (hk : ∀ s, o = .next s → k' (f s) = mapNext f (k s)) : andThen (mapNext f o) k' = mapNext f (andThen o k) := by
  cases o with
  | next s => exact hk s rfl
  | fault r => rfl
  | refused r => rfl

/-- The Session with another content of the unwritten buffer bytes; `withEpoch` is this on the state's Session. -/
def Session.withEpoch (e : Nat) (ses : Session) : Session := { ses with rxBuffer := { ses.rxBuffer with epoch := e } }

section
variable (e : Nat) (s : State) (ses : Session)

@[simp] theorem withEpoch_session : (withEpoch e s).session = s.session.withEpoch e := rfl
@[simp] theorem withEpoch_sinkCallInProgress : (withEpoch e s).sinkCallInProgress = s.sinkCallInProgress := rfl
@[simp] theorem withEpoch_overlapping : (withEpoch e s).overlapping = s.overlapping := rfl
@[simp] theorem withEpoch_sinkConduct : (withEpoch e s).sinkConduct = s.sinkConduct := rfl

@[simp] theorem Session.withEpoch_life : (ses.withEpoch e).life = ses.life := rfl
@[simp] theorem Session.withEpoch_cursor : (ses.withEpoch e).cursor = ses.cursor := rfl
@[simp] theorem Session.withEpoch_byteSinkPresent : (ses.withEpoch e).byteSinkPresent = ses.byteSinkPresent := rfl
@[simp] theorem Event.sinkPresent_withEpoch (ev : Event) : ev.sinkPresent (ses.withEpoch e) = ev.sinkPresent ses := by
  cases ev <;> rfl

end

theorem afterLifecycle_withEpoch {s : State} {body : State → Out} {e : Nat}
    (hbody : s.sinkCallInProgress = false →
      body (withEpoch e (s.returning none)) = mapNext (withEpoch e) (body (s.returning none))) :
    afterLifecycle (withEpoch e s) body = mapNext (withEpoch e) (afterLifecycle s body) := by
  unfold afterLifecycle
  rw [withEpoch_sinkCallInProgress]
  split_ifs with hp
  · rfl
  · exact hbody (by simpa using hp)

/-- The entry checks of R216 do not read the buffer. -/
theorem guarded_withEpoch {c : OpClass} {s : State} {body : State → Out} {e : Nat}
    (hbody : (c ≠ .init → s.Ready) →
      body (withEpoch e (s.returning none)) = mapNext (withEpoch e) (body (s.returning none))) :
    guarded c (withEpoch e s) body = mapNext (withEpoch e) (guarded c s body) := by
  unfold guarded
  rw [withEpoch_overlapping, withEpoch_session, Session.withEpoch_life]
  split_ifs with ho
  · rfl
  have hstart (hlife : c ≠ .init → s.session.life = .live) :
      afterLifecycle (withEpoch e s) body = mapNext (withEpoch e) (afterLifecycle s body) :=
    afterLifecycle_withEpoch fun hp => hbody fun hc => ⟨hlife hc, by simpa using ho, hp⟩
  cases hl : s.session.life with
  | live =>
    cases c with
    | init => rfl
    | _ => exact hstart fun _ => hl
  | absent | released =>
    cases c with
    | init => exact hstart fun hc => absurd rfl hc
    | _ => rfl

theorem callBack_withEpoch (record : List Byte) (s : State) (e : Nat) :
    callBack record (withEpoch e s) = mapNext (withEpoch e) (callBack record s) := by
  unfold callBack
  cases hostOperation record with
  | error => rfl
  | ok i => exact guarded_withEpoch fun _ => rfl

theorem callBacks_withEpoch (calls : List (List Byte)) (s : State) (e : Nat) :
    callBacks calls (withEpoch e s) = mapNext (withEpoch e) (callBacks calls s) := by
  induction calls generalizing s with
  | nil => rfl
  | cons record calls ih =>
    rw [callBacks, callBacks, callBack_withEpoch]
    exact andThen_mapNext fun u _ => ih u

theorem sinkCall_withEpoch (s : State) (e : Nat) : sinkCall (withEpoch e s) = mapNext (withEpoch e) (sinkCall s) := by
  unfold sinkCall
  rw [withEpoch_sinkConduct]
  cases s.sinkConduct.headD (.valid []) with
  | gone => rfl
  | valid calls =>
    have hcalls := callBacks_withEpoch calls { s with sinkCallInProgress := true, sinkConduct := s.sinkConduct.tail } e
    exact (congrArg (andThen · _) hcalls).trans (andThen_mapNext fun _ _ => rfl)

theorem emit_withEpoch (ev : Event) (s : State) (e : Nat) :
    emit ev (withEpoch e s) = mapNext (withEpoch e) (emit ev s) := by
  unfold emit
  rw [withEpoch_session, Event.sinkPresent_withEpoch, sinkCall_withEpoch]
  split_ifs
  · exact andThen_mapNext fun _ _ => rfl
  · rfl

theorem sendBytes_withEpoch (bytes : List Byte) (s : State) (e : Nat) :
    sendBytes bytes (withEpoch e s) = mapNext (withEpoch e) (sendBytes bytes s) := by
  unfold sendBytes
  rw [withEpoch_session, Session.withEpoch_byteSinkPresent, sinkCall_withEpoch]
  split_ifs
  · exact andThen_mapNext fun _ _ => rfl
  · rfl

theorem encoderOp_withEpoch (valid : Bool) (bytes : List Byte) (s : State) (e : Nat) :
    encoderOp valid bytes (withEpoch e s) = mapNext (withEpoch e) (encoderOp valid bytes s) := by
  refine guarded_withEpoch fun _ => ?_
  cases valid with
  | true => exact sendBytes_withEpoch bytes _ e
  | false => rfl

/-- The table of R36 keeps the index of the next byte inside the buffer (R53). -/
theorem Session.Table.cursor_lt {ses : Session} (ht : ses.Table) : ses.cursor < 20 := by
  obtain ⟨hwait, hinfo, hidStd, hidExt, hdata, heof, hstatus⟩ := ht
  have hoff : dataOffset ses.pendingType ≤ 6 := by cases ses.pendingType <;> simp [dataOffset]
  have hend : ses.dataEnd = dataOffset ses.pendingType + ses.pendingDlc.toNat := rfl
  cases hd : ses.detectState with
  | waitStart => obtain ⟨hc, -⟩ := hwait hd; omega
  | frameInfo => obtain ⟨hc, -⟩ := hinfo hd; omega
  | idStd => obtain ⟨hc, -⟩ := hidStd hd; omega
  | idExt => obtain ⟨-, hc, -⟩ := hidExt hd; omega
  | data => obtain ⟨-, hc, h8⟩ := hdata hd; omega
  | eof => obtain ⟨hc, h14, -⟩ := heof hd; omega
  | controllerStatus => obtain ⟨-, hc, -⟩ := hstatus hd; omega

/-- Bytes below `cursor` read the same: they are written. -/
theorem Session.Written.slice_withEpoch {ses : Session} (hw : ses.Written) (e : Nat) {lo n : Nat}
    (hn : lo + n ≤ ses.cursor) : (ses.withEpoch e).rxBuffer.slice lo n = ses.rxBuffer.slice lo n :=
  RxBuffer.slice_epoch ses.rxBuffer e lo n fun i _ hi => hw i (by omega)

/-- Of the buffer the receive machine reads the data of a frame (R149) and the bytes under a checksum (R148) only, all
of them below `cursor`. -/
theorem receive_withEpoch (b : Byte) {ses : Session} (e : Nat) (ht : ses.Table) (hw : ses.Written) :
    receive b (ses.withEpoch e) = (receive b ses).map fun r => (r.1.withEpoch e, r.2) := by
  have hlt := ht.cursor_lt
  cases hd : ses.detectState with
  | waitStart =>
    rw [receive_waitStart b hd, receive_waitStart b (ses := ses.withEpoch e) hd, Except.map]
    split_ifs <;> rfl
  | frameInfo =>
    rw [receive_frameInfo b _ hd rfl, receive_frameInfo b _ (ses := ses.withEpoch e) hd rfl, Except.map]
    split_ifs <;> rfl
  | idStd =>
    rw [receive_id b _ 4 (.inl ⟨hd, rfl⟩) hlt rfl,
      receive_id b _ 4 (ses := ses.withEpoch e) (.inl ⟨hd, rfl⟩) hlt rfl]
    rfl
  | idExt =>
    rw [receive_id b _ 6 (.inr ⟨hd, rfl⟩) hlt rfl,
      receive_id b _ 6 (ses := ses.withEpoch e) (.inr ⟨hd, rfl⟩) hlt rfl]
    rfl
  | data =>
    rw [receive_data b _ hd hlt rfl, receive_data b _ (ses := ses.withEpoch e) hd hlt rfl]
    rfl
  | eof =>
    obtain ⟨-, -, -, -, -, heof, -⟩ := ht
    obtain ⟨hc, -⟩ := heof hd
    have hdata := hw.slice_withEpoch e (lo := dataOffset ses.pendingType) (n := ses.pendingDlc.toNat) hc.ge
    rw [receive_eof b _ _ hd hlt hc rfl rfl,
      receive_eof b _ _ (ses := ses.withEpoch e) hd hlt hc rfl (congrArg (Frame.mk _ _ _) hdata.symm)]
    rfl
  | controllerStatus =>
    rw [receive_controllerStatus b _ hd hlt rfl,
      receive_controllerStatus b _ (ses := ses.withEpoch e) hd hlt rfl, Except.map]
    by_cases h19 : ses.cursor = 19
    · have hsum : statusChecksumOk (ses.withEpoch e).rxBuffer b = statusChecksumOk ses.rxBuffer b := by
        rw [statusChecksumOk, hw.slice_withEpoch e (by omega), statusChecksumOk]
      rw [if_pos h19, if_pos (show (ses.withEpoch e).cursor = 19 from h19), hsum]
      rfl
    · rw [if_neg h19, if_neg (show ¬ (ses.withEpoch e).cursor = 19 from h19), Session.withEpoch_cursor]
      split_ifs <;> rfl

theorem deliver_withEpoch (ev : Option Event) (ses : Session) (s : State) (e : Nat) :
    deliver ev (ses.withEpoch e) (withEpoch e s) = mapNext (withEpoch e) (deliver ev ses s) := by
  cases ev with
  | none => rfl
  | some ev =>
    rw [deliver, deliver, emit_withEpoch]
    exact andThen_mapNext fun _ _ => rfl

theorem feedByte_withEpoch (b : Byte) {s : State} (e : Nat) (hi : s.Inv) :
    feedByte b (withEpoch e s) = mapNext (withEpoch e) (feedByte b s) := by
  obtain ⟨-, -, hlive⟩ := hi
  refine guarded_withEpoch fun hready => ?_
  obtain ⟨hl, -, -⟩ := hready (by decide)
  obtain ⟨ht, hw, -⟩ := hlive hl
  unfold feedBody
  rw [withEpoch_session, State.returning_session, receive_withEpoch b e ht hw]
  cases receive b s.session with
  | error r => rfl
  | ok r => exact deliver_withEpoch r.2 r.1 _ e

theorem feedBytes_withEpoch (bytes : List Byte) {s : State} (e : Nat) (hi : s.Inv) :
    feedBytes bytes (withEpoch e s) = mapNext (withEpoch e) (feedBytes bytes s) := by
  induction bytes generalizing s with
  | nil => rfl
  | cons b bytes ih =>
    rw [feedBytes_cons, feedBytes_cons, feedByte_withEpoch b e hi]
    exact andThen_mapNext fun u hu => ih (feedByte_keeps_inv hi hu)

theorem execDeinit_withEpoch (s : State) (e : Nat) :
    execDeinit (withEpoch e s) = mapNext (withEpoch e) (execDeinit s) :=
  guarded_withEpoch fun _ => rfl

end Machine

/-- Settles O31: receptions keep the table of R36, encoders leave the Session alone, INIT makes an idle Session, and
with no Session live the table asks nothing. -/
theorem stepKeepsInvariant : Obligations.StepKeepsInvariant :=
  fun _ _ => Machine.step_keeps_inv

/-- Settles O37: the receive machine reads written bytes only, and nothing else reads the buffer. -/
theorem unwrittenBytesAreUnobservable : Obligations.UnwrittenBytesAreUnobservable := by
  intro i s e hinv hne
  obtain hi | hi | ⟨sinks, rfl⟩ | rfl | ⟨record, rfl⟩ := Machine.instr_cases i
  · rw [Machine.exec_of_receives hi, Machine.exec_of_receives hi]
    exact Machine.feedBytes_withEpoch _ e hinv
  · obtain ⟨valid, bytes, hrun⟩ := Machine.exec_of_isEncoder hi
    rw [hrun, hrun]
    exact Machine.encoderOp_withEpoch valid bytes s e
  · exact absurd rfl (hne sinks)
  · exact Machine.execDeinit_withEpoch s e
  · rfl

/-- Settles O22: the frame of one FEED, carried through the bytes of the instruction. -/
theorem receptionLeavesTheRest : Obligations.ReceptionLeavesTheRest := by
  intro i s t hi h
  obtain ⟨hf, hr⟩ := Machine.serialBytes_receptionFrame hi (Machine.exec_of_receives hi s ▸ h)
  exact ⟨hf.life, hf.frameSink, hf.statusSink, hf.byteSink, hf.overlapping, hf.sinkCallInProgress, hf.input,
    hf.initAnswers, hf.byteSinkAnswers, hf.draws, hr, hf.trace⟩

/-- Settles O35, by what each instruction but INIT can do. -/
theorem onlyInitWritesSinkBits : Obligations.OnlyInitWritesSinkBits := by
  intro i s t hne h
  obtain ⟨hi, hfeeds⟩ | ⟨-, valid, bytes, henc⟩ | ⟨sinks, rfl, -⟩ | ⟨-, hdeinit⟩ := Machine.exec_eq_next h
  · obtain ⟨hf, -⟩ := Machine.serialBytes_receptionFrame hi hfeeds
    exact ⟨hf.frameSink, hf.statusSink, hf.byteSink⟩
  · obtain ⟨hs, -⟩ := Machine.encoderOp_keeps_session henc
    simp [hs]
  · exact absurd rfl (hne sinks)
  · obtain ⟨-, rfl⟩ := Machine.execDeinit_eq_next hdeinit
    exact ⟨rfl, rfl, rfl⟩

/-- Settles O36, by what each instruction but INIT can do. -/
theorem onlyLifecycleOperationsWriteLife : Obligations.OnlyLifecycleOperationsWriteLife := by
  intro i s t h
  obtain ⟨hi, hfeeds⟩ | ⟨-, valid, bytes, henc⟩ | ⟨sinks, rfl, -⟩ | ⟨rfl, hdeinit⟩ := Machine.exec_eq_next h
  · obtain ⟨hf, -⟩ := Machine.serialBytes_receptionFrame hi hfeeds
    exact ⟨fun _ _ => hf.life, fun _ hn => by simp [hi] at hn⟩
  · obtain ⟨hs, -⟩ := Machine.encoderOp_keeps_session henc
    simp [hs]
  · exact ⟨fun hne => absurd rfl (hne sinks), fun hne => absurd rfl (hne sinks)⟩
  · obtain ⟨-, rfl⟩ := Machine.execDeinit_eq_next hdeinit
    exact ⟨fun _ hne => absurd rfl hne, fun _ _ => rfl⟩

/-- Settles O30: no Session is live at power-on, and the buffer is empty (R21, R240). -/
theorem powerOnSatisfiesInvariant : Obligations.PowerOnSatisfiesInvariant :=
  .of_not_live Machine.Memory.wf_nil rfl (by decide)

end Sys2Proof
end

section
/-! The receive buffer, the output trace and the byte order of the fields (20_memory.md): FEED's one store (R53),
BUFFER_BOUNDS never raised (R53), the append-only trace (R57), encoder operations in a FEED stream (R62), and
little-endian fields (R52). -/

namespace Sys2Proof

open Spec

namespace Machine

/-! ### FEED's store -/

/-- FEED leaves the Session as the receive machine leaves it, whether an event is delivered or not. -/
theorem feedByte_session {b : Byte} {s t : State} (h : feedByte b s = .next t) :
    ∃ ev, receive b s.session = .ok (t.session, ev) := by
  obtain ⟨-, ses', ev, hrec, ⟨-, rfl⟩ | ⟨-, -, -, -, rfl⟩⟩ := feedByte_eq_next h
  · exact ⟨ev, hrec⟩
  · exact ⟨ev, hrec⟩

/-- What reads back after a received byte: that byte at the one index written, every other byte as before. -/
theorem StoredAt.read {ses ses' : Session} {b : Byte} (h : StoredAt ses ses' b) (a : Nat) :
    ses'.rxBuffer.read a = if a = storeIndex ses then b else ses.rxBuffer.read a := by
  rw [h.2, RxBuffer.read_write]

/-- R142: outside a message a byte other than the start byte changes nothing. -/
theorem receive_ignored {b : Byte} {ses ses' : Session} {ev : Option Event}
    (hign : ses.detectState = .waitStart ∧ b ≠ 0xAA) (h : receive b ses = .ok (ses', ev)) : ses' = ses := by
  rw [receive_waitStart b hign.1, if_neg hign.2] at h
  exact (Prod.mk.inj (Except.ok.inj h)).1.symm

/-- Every other byte is stored. -/
theorem receive_stored {b : Byte} {ses ses' : Session} {ev : Option Event}
    (hign : ¬ (ses.detectState = .waitStart ∧ b ≠ 0xAA)) (h : receive b ses = .ok (ses', ev)) :
    StoredAt ses ses' b := by
  obtain ⟨-, -, -, -, ⟨-, hwait⟩ | hstored⟩ := receive_frame h
  · exact absurd hwait hign
  · exact hstored

/-! ### No operation raises BUFFER_BOUNDS -/

theorem andThen_ne_fault {f : Fault} {o : Out} {k : State → Out} (ho : o ≠ .fault f)
    (hk : ∀ s, o = .next s → k s ≠ .fault f) : andThen o k ≠ .fault f := by
  cases o with
  | next s => exact hk s rfl
  | fault g => exact ho
  | refused r => exact nofun

/-- The entry checks of R216 raise other faults only. -/
theorem guarded_ne_bufferBounds {c : OpClass} {s : State} {body : State → Out}
    (hbody : (c ≠ .init → s.Ready) → body (s.returning none) ≠ .fault .bufferBounds) :
    guarded c s body ≠ .fault .bufferBounds := by
  have hstart (ho : s.overlapping = false) (hlife : c ≠ .init → s.session.life = .live) :
      afterLifecycle s body ≠ .fault .bufferBounds := by
    unfold afterLifecycle
    split_ifs with hp
    · exact nofun
    · exact hbody fun hc => ⟨hlife hc, ho, by simpa using hp⟩
  unfold guarded
  split_ifs with ho
  · exact nofun
  have ho : s.overlapping = false := by simpa using ho
  cases hl : s.session.life with
  | live =>
    cases c with
    | init => exact nofun
    | _ => exact hstart ho fun _ => hl
  | absent | released =>
    cases c with
    | init => exact hstart ho fun hc => absurd rfl hc
    | _ => exact nofun

theorem callBack_ne_bufferBounds (record : List Byte) (s : State) : callBack record s ≠ .fault .bufferBounds := by
  unfold callBack
  split
  · exact nofun
  · exact guarded_ne_bufferBounds fun _ => nofun

theorem callBacks_ne_bufferBounds (calls : List (List Byte)) (s : State) :
    callBacks calls s ≠ .fault .bufferBounds := by
  induction calls generalizing s with
  | nil => exact nofun
  | cons record calls ih => exact andThen_ne_fault (callBack_ne_bufferBounds record s) fun u _ => ih u

theorem sinkCall_ne_bufferBounds (s : State) : sinkCall s ≠ .fault .bufferBounds := by
  unfold sinkCall
  split
  · exact nofun
  · exact andThen_ne_fault (callBacks_ne_bufferBounds _ _) fun _ _ => nofun

theorem sendBytes_ne_bufferBounds (bytes : List Byte) (s : State) : sendBytes bytes s ≠ .fault .bufferBounds := by
  unfold sendBytes
  split_ifs
  · exact andThen_ne_fault (sinkCall_ne_bufferBounds s) fun _ _ => nofun
  · exact nofun

theorem encoderOp_ne_bufferBounds (valid : Bool) (bytes : List Byte) (s : State) :
    encoderOp valid bytes s ≠ .fault .bufferBounds := by
  refine guarded_ne_bufferBounds fun _ => ?_
  cases valid with
  | true => exact sendBytes_ne_bufferBounds bytes _
  | false => exact nofun

theorem deliver_ne_bufferBounds (event : Option Event) (after : Session) (s : State) :
    deliver event after s ≠ .fault .bufferBounds := by
  cases event with
  | none => exact nofun
  | some e =>
    refine andThen_ne_fault ?_ fun _ _ => nofun
    unfold emit
    split_ifs
    · exact andThen_ne_fault (sinkCall_ne_bufferBounds s) fun _ _ => nofun
    · exact nofun

/-- The table of R36 keeps every buffer access of the receive machine inside the buffer (R53). -/
theorem feedByte_ne_bufferBounds (b : Byte) {s : State} (hi : s.Inv) : feedByte b s ≠ .fault .bufferBounds := by
  obtain ⟨hm, -, hlive⟩ := hi
  refine guarded_ne_bufferBounds fun hready => ?_
  obtain ⟨hl, -, -⟩ := hready (by decide)
  obtain ⟨ht, hw, hz⟩ := hlive hl
  obtain ⟨ses', ev, hrec, -⟩ := receive_table b hm ht hw hz
  simp only [feedBody, State.returning_session, hrec]
  exact deliver_ne_bufferBounds ev ses' _

theorem feedBytes_ne_bufferBounds (bytes : List Byte) {s : State} (hi : s.Inv) :
    feedBytes bytes s ≠ .fault .bufferBounds := by
  induction bytes generalizing s with
  | nil => exact nofun
  | cons b bytes ih =>
    exact andThen_ne_fault (feedByte_ne_bufferBounds b hi) fun u hu => ih (feedByte_keeps_inv hi hu)

theorem exec_ne_bufferBounds (i : Instr) {s : State} (hi : s.Inv) : exec i s ≠ .fault .bufferBounds := by
  obtain hrec | henc | ⟨sinks, rfl⟩ | rfl | ⟨record, rfl⟩ := instr_cases i
  · rw [exec_of_receives hrec]
    exact feedBytes_ne_bufferBounds _ hi
  · obtain ⟨valid, bytes, hrun⟩ := exec_of_isEncoder henc
    rw [hrun]
    exact encoderOp_ne_bufferBounds valid bytes s
  · exact guarded_ne_bufferBounds fun _ => nofun
  · exact guarded_ne_bufferBounds fun _ => nofun
  · exact nofun

theorem step_ne_bufferBounds {s : State} (hi : s.Inv) : step s ≠ .fault .bufferBounds := by
  cases hin : s.input with
  | nil => rw [step_of_input_nil hin]; exact nofun
  | cons p rest =>
    cases hdec : decode p.port p.bytes with
    | none => rw [step_of_decode_none hin hdec]; exact nofun
    | some r =>
      rw [step_of_decode hin hdec]
      exact exec_ne_bufferBounds r.1 (s := { s with input := requeue p r.2 rest, overlapping := p.overlaps }) hi

/-! ### The output trace -/

/-- An encoder operation appends to the trace, and no event (R110, R115). -/
theorem encoderOp_trace {valid : Bool} {bytes : List Byte} {s t : State} (h : encoderOp valid bytes s = .next t) :
    ∃ entries, t.trace = s.trace ++ entries ∧ ∀ e ∈ entries, isEvent e = false := by
  obtain ⟨-, ⟨-, rfl⟩ | ⟨hl, -, ⟨-, rfl⟩ | ⟨-, hsend⟩⟩⟩ := encoderOp_eq_next h
  · exact ⟨[.result .invalidArgument], rfl, by simp [isEvent]⟩
  · exact ⟨[.result .invalidArgument], rfl, by simp [isEvent]⟩
  · obtain ⟨-, rfl⟩ | ⟨-, -, rfl⟩ := sendBytes_eq_next (s := s.returning none) hl hsend
    · exact ⟨[.result .ok], rfl, by simp [isEvent]⟩
    · exact ⟨_, List.append_assoc .., by simp [isEvent]⟩

theorem exec_trace_prefix {i : Instr} {s t : State} (h : exec i s = .next t) : s.trace <+: t.trace := by
  obtain ⟨hi, hfeeds⟩ | ⟨-, valid, bytes, henc⟩ | ⟨sinks, -, hinit⟩ | ⟨-, hdeinit⟩ := exec_eq_next h
  · obtain ⟨hf, -⟩ := serialBytes_receptionFrame hi hfeeds
    obtain ⟨events, ht, -⟩ := hf.trace
    exact ⟨events, ht.symm⟩
  · obtain ⟨entries, ht, -⟩ := encoderOp_trace henc
    exact ⟨entries, ht.symm⟩
  · obtain ⟨-, -, -, rfl⟩ := execInit_eq_next hinit
    exact List.prefix_rfl
  · obtain ⟨-, rfl⟩ := execDeinit_eq_next hdeinit
    exact List.prefix_rfl

theorem step_trace_prefix {s t : State} (h : step s = .next t) : s.trace <+: t.trace := by
  obtain rfl | ⟨rest, rfl⟩ | ⟨i, rest, overlaps, hexec⟩ := step_eq_next h
  · exact List.prefix_rfl
  · exact List.prefix_rfl
  · exact exec_trace_prefix (s := { s with input := rest, overlapping := overlaps }) hexec

/-! ### Encoder operations in a FEED stream -/

theorem State.SinksQuiet.next {s : State} (h : s.SinksQuiet) : s.NextSinkQuiet := by
  cases hc : s.sinkConduct with
  | nil => simp [State.NextSinkQuiet, hc]
  | cons c rest => simpa [State.NextSinkQuiet, hc] using h c (by simp [hc])

/-- A state that can start an operation, with sinks that never stop it. -/
abbrev State.Unhindered (s : State) : Prop := s.Ready ∧ s.SinksQuiet

/-- An encoder operation leaves sinks that call nothing back, and the caller's side as it was. -/
theorem encoderOp_unhindered {valid : Bool} {bytes : List Byte} {s t : State} (hs : s.Unhindered)
    (h : encoderOp valid bytes s = .next t) : t.Unhindered := by
  have ⟨⟨hl, ho, _⟩, hq⟩ := hs
  obtain ⟨-, ⟨-, rfl⟩ | ⟨-, -, ⟨-, rfl⟩ | ⟨-, hsend⟩⟩⟩ := encoderOp_eq_next h
  · exact hs
  · exact hs
  · obtain ⟨-, rfl⟩ | ⟨-, -, rfl⟩ := sendBytes_eq_next (s := s.returning none) hl hsend
    · exact hs
    · exact ⟨⟨hl, ho, rfl⟩, fun c hc => hq c (List.mem_of_mem_tail hc)⟩

/-- The entries FEED adds to the trace for the event a byte completes (R150). -/
def delivered (ev : Option Event) (ses : Session) : List TraceEntry :=
  match ev with
  | none => []
  | some e => if e.sinkPresent ses then [e.entry] else []

/-- Where no sink stops it, FEED of a byte depends on the Session only. -/
theorem feedByte_unhindered {b : Byte} {s : State} {ses' : Session} {ev : Option Event} (hs : s.Unhindered)
    (hrec : receive b s.session = .ok (ses', ev)) :
    ∃ t, feedByte b s = .next t ∧ t.session = ses' ∧ t.trace = s.trace ++ delivered ev s.session ∧ t.Unhindered := by
  obtain ⟨hr, hq⟩ := hs
  have ready (t : State) (ht : t.session = ses') (ho : t.overlapping = s.overlapping)
      (hp : t.sinkCallInProgress = s.sinkCallInProgress) : t.Ready := by
    obtain ⟨hlife, -⟩ := receive_frame hrec
    rwa [State.Ready, ht, hlife, ho, hp]
  cases ev with
  | none =>
    exact ⟨_, feedByte_none hr hrec, rfl, (List.append_nil _).symm, ready _ rfl rfl rfl, hq⟩
  | some e =>
    obtain ⟨habsent, hpresent⟩ := feedByte_some hr hrec
    cases hp : e.sinkPresent s.session with
    | false => exact ⟨_, habsent hp, rfl, by simp [delivered, hp], ready _ rfl rfl rfl, hq⟩
    | true =>
      exact ⟨_, hpresent hp hq.next, rfl, by simp [delivered, hp], ready _ rfl rfl rfl,
        fun c hc => hq c (List.mem_of_mem_tail hc)⟩

/-- Two states that no FEED stream tells apart: the same Session and the same events so far. -/
structure SameReception (s u : State) : Prop where
  left : s.Unhindered
  right : u.Unhindered
  session : u.session = s.session
  events : u.trace.filter isEvent = s.trace.filter isEvent

/-- An encoder operation on one side is not seen. -/
theorem SameReception.encoderOp_left {valid : Bool} {bytes : List Byte} {s u t : State} (h : SameReception s u)
    (hs : encoderOp valid bytes s = .next t) : SameReception t u where
  left := encoderOp_unhindered h.left hs
  right := h.right
  session := h.session.trans (encoderOp_keeps_session hs).1.symm
  events := by
    obtain ⟨entries, ht, hentries⟩ := encoderOp_trace hs
    have hnone : entries.filter isEvent = [] := List.filter_eq_nil_iff.2 fun e he => by simp [hentries e he]
    rw [h.events, ht, List.filter_append, hnone, List.append_nil]

/-- A FEED on both sides does the same. -/
theorem SameReception.feedByte_both {b : Byte} {s u t : State} (h : SameReception s u)
    (hs : feedByte b s = .next t) : ∃ v, feedByte b u = .next v ∧ SameReception t v := by
  obtain ⟨ev, hrec⟩ := feedByte_session hs
  obtain ⟨t', hs', -, htrace, ht⟩ := feedByte_unhindered h.left hrec
  obtain rfl : t = t' := Host.Outcome.next.inj (hs.symm.trans hs')
  obtain ⟨v, hv, hsession, htrace', hvu⟩ := feedByte_unhindered h.right (h.session ▸ hrec)
  refine ⟨v, hv, ht, hvu, hsession, ?_⟩
  rw [htrace', htrace, List.filter_append, List.filter_append, h.events, h.session]

theorem runAll_cons (i : Instr) (ops : List Instr) (s : State) :
    runAll (i :: ops) s = andThen (exec i s) (runAll ops) := rfl

theorem not_receives_of_isEncoder {i : Instr} (hi : isEncoder i = true) : receives i = false := by
  cases i with
  | encFrame | encConfig | encFilter | encCancel => rfl
  | _ => cases hi

/-- With the encoder operations taken out of the stream, each FEED meets the same Session. -/
theorem SameReception.runAll_filter {ops : List Instr} {s u t : State} (h : SameReception s u)
    (hops : ∀ i ∈ ops, isEncoder i = true ∨ ∃ b, i = .feed b) (hrun : runAll ops s = .next t) :
    ∃ v, runAll (ops.filter receives) u = .next v ∧ SameReception t v := by
  induction ops generalizing s u with
  | nil =>
    cases hrun
    exact ⟨u, rfl, h⟩
  | cons i ops ih =>
    obtain ⟨hi, hrest⟩ := List.forall_mem_cons.1 hops
    rw [runAll_cons] at hrun
    obtain ⟨s', hstep, hrun'⟩ := andThen_eq_next hrun
    obtain henc | ⟨b, rfl⟩ := hi
    · obtain ⟨valid, bytes, hexec⟩ := exec_of_isEncoder henc
      rw [List.filter_cons_of_neg (by simp [not_receives_of_isEncoder henc])]
      exact ih (h.encoderOp_left (hexec s ▸ hstep)) hrest hrun'
    · obtain ⟨u', hu', h'⟩ := h.feedByte_both hstep
      obtain ⟨v, hv, htv⟩ := ih h' hrest hrun'
      refine ⟨v, ?_, htv⟩
      rw [List.filter_cons_of_pos rfl, runAll_cons, show exec (.feed b) u = .next u' from hu', andThen_next, hv]

/-! ### Little-endian fields -/

theorem leBytes_two (v : Nat) : leBytes 2 v = [BitVec.ofNat 8 v, BitVec.ofNat 8 (v / 256)] := by
  simp [leBytes, List.range_succ]

theorem leBytes_four (v : Nat) : leBytes 4 v =
    [BitVec.ofNat 8 v, BitVec.ofNat 8 (v / 256), BitVec.ofNat 8 (v / 65536), BitVec.ofNat 8 (v / 16777216)] := by
  simp [leBytes, List.range_succ]

/-- A byte cut out of a word is the word's number divided by a power of two. -/
theorem extractByte_eq_ofNat {w : Nat} (x : BitVec w) (k : Nat) :
    x.extractLsb' k 8 = BitVec.ofNat 8 (x.toNat / 2 ^ k) := by
  rw [BitVec.extractLsb', Nat.shiftRight_eq_div_pow]

theorem le32_eq_leBytes (w : Word32) : le32 w = leBytes 4 w.toNat := by
  simp [le32, leBytes_four, extractByte_eq_ofNat]

theorem le16_eq_leBytes (w : Word16) : le16 w = leBytes 2 w.toNat := by
  simp [le16, leBytes_two, extractByte_eq_ofNat]

/-- The two low bytes of a number depend on its low 16 bits only (R82). -/
theorem leBytes_two_mod (v : Nat) : leBytes 2 (v % 65536) = leBytes 2 v := by
  have hlow : BitVec.ofNat 8 (v % 65536) = BitVec.ofNat 8 v :=
    BitVec.eq_of_toNat_eq (by simp only [BitVec.toNat_ofNat]; omega)
  have hhigh : BitVec.ofNat 8 (v % 65536 / 256) = BitVec.ofNat 8 (v / 256) :=
    BitVec.eq_of_toNat_eq (by simp only [BitVec.toNat_ofNat]; omega)
  rw [leBytes_two, leBytes_two, hlow, hhigh]

/-- The number four little-endian bytes stand for: they are what `le32` gives back. -/
theorem word32_toNat (a b c d : Byte) :
    (word32 a b c d).toNat = a.toNat + 256 * b.toNat + 65536 * c.toNat + 16777216 * d.toNat := by
  have hbytes : leBytes 4 (word32 a b c d).toNat = [a, b, c, d] :=
    (le32_eq_leBytes _).symm.trans (le32_word32 a b c d)
  have hlt := (word32 a b c d).isLt
  generalize (word32 a b c d).toNat = v at hbytes hlt ⊢
  simp only [leBytes_four, List.cons.injEq, and_true] at hbytes
  obtain ⟨rfl, rfl, rfl, rfl⟩ := hbytes
  simp only [BitVec.toNat_ofNat]
  omega

theorem idField_standard (id : Word32) : idField .standard id = leBytes 2 id.toNat := by
  rw [idField, le16_eq_leBytes, BitVec.toNat_setWidth]
  exact leBytes_two_mod id.toNat

end Machine

/-- Settles O21: a byte is ignored, or stored at the one index R53 gives. -/
theorem feedStoresOneByte : Obligations.FeedStoresOneByte := by
  intro b s t index hindex h
  obtain ⟨ev, hrec⟩ := Machine.feedByte_session h
  have hindex : index = Machine.storeIndex s.session := hindex
  by_cases hign : s.session.detectState = .waitStart ∧ b ≠ 0xAA
  · rw [Machine.receive_ignored hign hrec]
    exact ⟨fun _ _ => rfl, fun _ _ => rfl, fun hn => absurd hign hn⟩
  · have hstored := Machine.receive_stored hign hrec
    subst hindex
    exact ⟨fun a ha => by rw [hstored.read, if_neg ha], fun hw => absurd hw hign,
      fun _ => ⟨hstored.1, by rw [hstored.read, if_pos rfl]⟩⟩

/-- Settles O32: the receive machine's accesses are inside the buffer by the table of R36, and nothing else makes one. -/
theorem bufferBoundsIsNeverRaised : Obligations.BufferBoundsIsNeverRaised :=
  fun _ => Machine.step_ne_bufferBounds

/-- Settles O34, by what each instruction appends. -/
theorem traceOnlyGrows : Obligations.TraceOnlyGrows := by
  intro s t h
  obtain ⟨entries, ht⟩ := Machine.step_trace_prefix h
  exact ⟨entries, ht.symm⟩

/-- Settles O38: the run with the encoder operations and the run without them keep the same Session and events. -/
theorem encodersMayBeInterleaved : Obligations.EncodersMayBeInterleaved := by
  intro ops s t hready hquiet hops hrun
  have hstart : Machine.SameReception s s := ⟨⟨hready, hquiet⟩, ⟨hready, hquiet⟩, rfl, rfl⟩
  obtain ⟨u, hu, h⟩ := hstart.runAll_filter hops hrun
  exact ⟨u, hu, h.session, h.events⟩

/-- Settles O55: division by powers of 256, written and read back. -/
theorem fieldsAreLittleEndian : Obligations.FieldsAreLittleEndian :=
  ⟨Machine.le32_eq_leBytes, Machine.le16_eq_leBytes, Machine.word32_toNat,
    fun p => Machine.word32_toNat p.id0 p.id1 p.id2 p.id3,
    fun id => ⟨Machine.idField_standard id, Machine.le32_eq_leBytes id⟩⟩

end Sys2Proof
end

section
/-! The encoder writes again what the decoder has read (30_encoding.md R70 to R79, R88 to R90): every host record is the
record of the instruction it decodes to, and reading serial bytes loses none. -/

namespace Sys2Proof

open Spec

/-! ### Well-formedness in the decoder's terms -/

theorem wf_encFilter_iff {ids : List Word32} : (Instr.encFilter ids).wf = true ↔ ids.length ≤ 255 := by
  simp [Instr.wf, Config.maxFilterIds]

theorem wf_filterEnable_iff {ids : List Word32} {sum : Byte} :
    (Instr.filterEnable ids sum).wf = true ↔ ids.length ≤ 255 ∧ ¬ (ids = [] ∧ sum = 0x10) := by
  simp [Instr.wf, Config.maxFilterIds, imp_iff_not_or]

theorem wf_ctrlDlcInvalid_iff {ctrl : Byte} :
    (Instr.ctrlDlcInvalid ctrl).wf = true ↔ isControlByte ctrl = true ∧ 8 < (dlcField ctrl).toNat := by
  simp [Instr.wf, isControlByte, toNat_dlcField]

theorem wf_frameInfoUnrecognized_iff {b : Byte} :
    (Instr.frameInfoUnrecognized b).wf = true ↔ b ≠ 0x55 ∧ ¬ isControlByte b = true := by
  simp [Instr.wf, isControlByte]

/-! ### Host records and the instructions they spell -/

/-- `i` is the well-formed host instruction with these bytes (R89). -/
structure IsRecordOf (record : List Byte) (i : Instr) : Prop where
  encode : encode i = record
  wf : i.wf = true
  port : i.port = .host

theorem kindByte_of_kindOperand {b : Byte} {kind : IdKind} (h : kindOperand b = .ok kind) : kindByte kind = b := by
  unfold kindOperand at h
  split_ifs at h with h0 h1 <;> cases h
  · exact h0.symm
  · exact h1.symm

/-- The operand byte of INIT holds the three sink bits and no other (R89). -/
theorem sinksByte_bits : ∀ b : Byte, b &&& 0xF8 = 0 → sinksByte ⟨b.getLsbD 0, b.getLsbD 1, b.getLsbD 2⟩ = b := by
  decide +kernel

theorem isRecordOf_encFrame {args : List Byte} {i : Instr} (h : hostEncFrame args = .ok i) :
    IsRecordOf (0x02 :: args) i := by
  unfold hostEncFrame at h
  split at h
  · next kind i0 i1 i2 i3 dlc data =>
    split_ifs at h with hlen
    cases hk : kindOperand kind with
    | error e => simp [hk, Except.map] at h
    | ok k =>
      obtain rfl : Instr.encFrame k (word32 i0 i1 i2 i3) dlc data = i := by simpa [hk, Except.map] using h
      exact ⟨by simp [encode, kindByte_of_kindOperand hk, le32_word32], by simp [Instr.wf, hlen], rfl⟩
  · cases h

theorem isRecordOf_encConfig {args : List Byte} {i : Instr} (h : hostEncConfig args = .ok i) :
    IsRecordOf (0x03 :: args) i := by
  unfold hostEncConfig at h
  split at h <;> cases h
  exact ⟨by simp [encode, le32_word32], rfl, rfl⟩

theorem isRecordOf_encFilter {args : List Byte} {i : Instr} (h : hostEncFilter args = .ok i) :
    IsRecordOf (0x04 :: args) i := by
  unfold hostEncFilter at h
  split at h
  · next n ids =>
    split_ifs at h with hlen
    cases h
    obtain ⟨hids, hcount⟩ := flatMap_le32_words32 ids n.toNat hlen
    exact ⟨by simp [encode, hids, hcount], wf_encFilter_iff.2 (by rw [hcount]; exact Nat.le_of_lt_succ n.isLt), rfl⟩
  · cases h

theorem isRecordOf_init {args : List Byte} {i : Instr} (h : hostInit args = .ok i) : IsRecordOf (0x06 :: args) i := by
  unfold hostInit at h
  split at h
  · next b =>
    split_ifs at h with hb
    cases h
    exact ⟨by rw [encode, sinksByte_bits b hb], rfl, rfl⟩
  · cases h

/-- R89: a record that spells an operation is the record of that operation. -/
theorem isRecordOf_of_hostOperation {record : List Byte} {i : Instr} (h : hostOperation record = .ok i) :
    IsRecordOf record i := by
  cases record with
  | nil => cases h
  | cons op args =>
    simp only [hostOperation] at h
    split_ifs at h with h1 h2 h3 h4 h5 hnil h6 h7 hnil
    · subst h1
      split at h <;> cases h
      exact ⟨rfl, rfl, rfl⟩
    · exact h2 ▸ isRecordOf_encFrame h
    · exact h3 ▸ isRecordOf_encConfig h
    · exact h4 ▸ isRecordOf_encFilter h
    · cases h
      subst h5 hnil
      exact ⟨rfl, rfl, rfl⟩
    · exact h6 ▸ isRecordOf_init h
    · cases h
      subst h7 hnil
      exact ⟨rfl, rfl, rfl⟩

theorem isRecordOf_decodeHost (record : List Byte) : IsRecordOf record (decodeHost record) := by
  cases hop : hostOperation record with
  | ok i => exact decodeHost_of_ok hop ▸ isRecordOf_of_hostOperation hop
  | error e =>
    have hill : recordWellFormed record = false := by
      rw [← Bool.not_eq_true, recordWellFormed_iff]
      simp [hop]
    rw [decodeHost_of_not_wellFormed hill]
    exact ⟨rfl, by simp [Instr.wf, hill], rfl⟩

/-! ### Wire rows and their bytes -/

/-- `i` is a well-formed wire row, and its bytes and the rest are `bytes` (R73 to R79). -/
structure SplitsAs (bytes : List Byte) (i : Instr) (rest : List Byte) : Prop where
  encode : encode i ++ rest = bytes
  wf : i.wf = true
  port : i.port = .wire

theorem take_append_of_drop {α : Type} {n : Nat} {xs more : List α} {x : α} (h : xs.drop n = x :: more) :
    xs.take n ++ x :: more = xs ∧ (xs.take n).length = n := by
  refine ⟨by rw [← h, List.take_append_drop], ?_⟩
  have := congrArg List.length h
  simp at this ⊢
  omega

theorem splitsAs_dataFrame {ctrl : Byte} {bytes rest : List Byte} {i : Instr} (hc : isControlByte ctrl = true)
    (h : wireDataFrame ctrl bytes = some (i, rest)) : SplitsAs (0xAA :: ctrl :: bytes) i rest := by
  simp only [wireDataFrame] at h
  split_ifs at h with hdlc
  · cases h
    exact ⟨rfl, wf_ctrlDlcInvalid_iff.2 ⟨hc, hdlc⟩, rfl⟩
  · have hctrl := wireControlByte_fields ctrl hc (by simpa using hdlc)
    split at h
    · next hk =>
      split at h <;> cases h
      next hdrop =>
      obtain ⟨hbytes, hlen⟩ := take_append_of_drop hdrop
      rw [hk] at hctrl
      exact ⟨by simp [encode, hlen, hctrl, le16_word16, hbytes], by simpa [Instr.wf, hlen] using hdlc, rfl⟩
    · next hk =>
      split at h <;> cases h
      next hdrop =>
      obtain ⟨hbytes, hlen⟩ := take_append_of_drop hdrop
      rw [hk] at hctrl
      exact ⟨by simp [encode, hlen, hctrl, le32_word32, hbytes], by simpa [Instr.wf, hlen] using hdlc, rfl⟩
    · cases h

theorem splitsAs_statusReport {bytes rest : List Byte} {i : Instr} (h : wireStatusReport bytes = some (i, rest)) :
    SplitsAs (0xAA :: 0x55 :: 0x04 :: bytes) i rest := by
  unfold wireStatusReport at h
  split at h
  · split at h <;> cases h
    next hdrop =>
    obtain ⟨hbytes, hlen⟩ := take_append_of_drop hdrop
    exact ⟨by simp [encode, hbytes], by simp only [Instr.wf, hlen, beq_self_eq_true], rfl⟩
  · cases h

theorem splitsAs_configMsg {bytes rest : List Byte} {i : Instr} (h : wireConfigMsg bytes = some (i, rest)) :
    SplitsAs (0xAA :: 0x55 :: 0x12 :: bytes) i rest := by
  unfold wireConfigMsg at h
  split at h
  · split at h <;> cases h
    next hdrop =>
    obtain ⟨hbytes, hlen⟩ := take_append_of_drop hdrop
    exact ⟨by simp [encode, le32_word32, hbytes], by simp only [Instr.wf, hlen, beq_self_eq_true], rfl⟩
  · cases h

theorem splitsAs_filter {bytes rest : List Byte} {i : Instr} (h : wireFilter bytes = some (i, rest)) :
    SplitsAs (0xAA :: 0x55 :: 0x10 :: bytes) i rest := by
  unfold wireFilter at h
  split at h
  · next count body =>
    split at h
    · next sum more hdrop =>
      obtain ⟨hbytes, hlen⟩ := take_append_of_drop hdrop
      split_ifs at h with hcancel
      · cases h
        obtain ⟨rfl, rfl⟩ := hcancel
        exact ⟨by simpa [encode] using hbytes, rfl, rfl⟩
      · cases h
        obtain ⟨hids, hcount⟩ := flatMap_le32_words32 _ count.toNat hlen
        have hc : words32 (body.take (4 * count.toNat)) = [] → count = 0 := fun hnil =>
          BitVec.eq_of_toNat_eq (by rw [← hcount, hnil]; rfl)
        refine ⟨by simp [encode, hids, hcount, hbytes], wf_filterEnable_iff.2 ⟨?_, ?_⟩, rfl⟩
        · rw [hcount]
          exact Nat.le_of_lt_succ count.isLt
        · exact fun ⟨hnil, hsum⟩ => hcancel ⟨hc hnil, hsum⟩
    · cases h
  · cases h

/-- A row that is read, or else the bare discriminator (R87). -/
theorem splitsAs_getD {bytes rest : List Byte} {i : Instr} {disc : Byte} {row : Option (Instr × List Byte)}
    (hne : disc ≠ 0x04)
    (hrow : ∀ i rest, row = some (i, rest) → SplitsAs (0xAA :: 0x55 :: disc :: bytes) i rest)
    (h : some (row.getD (.statusPathOtherDisc disc, bytes)) = some (i, rest)) :
    SplitsAs (0xAA :: 0x55 :: disc :: bytes) i rest := by
  cases row with
  | none =>
    cases h
    exact ⟨rfl, by simpa [Instr.wf] using hne, rfl⟩
  | some r => exact hrow i rest h

theorem splitsAs_statusPath {bytes rest : List Byte} {i : Instr} (h : wireStatusPath bytes = some (i, rest)) :
    SplitsAs (0xAA :: 0x55 :: bytes) i rest := by
  cases bytes with
  | nil => cases h
  | cons disc bytes =>
    simp only [wireStatusPath] at h
    split_ifs at h with h04 h12 h10
    · exact h04 ▸ splitsAs_statusReport h
    · exact splitsAs_getD h04 (fun _ _ hrow => h12 ▸ splitsAs_configMsg hrow) h
    · exact splitsAs_getD h04 (fun _ _ hrow => h10 ▸ splitsAs_filter hrow) h
    · exact splitsAs_getD (row := none) h04 nofun h

/-- A wire row that is read loses no byte (R73 to R79, R86). -/
theorem splitsAs_of_wireMessage {bytes rest : List Byte} {i : Instr} (h : wireMessage bytes = some (i, rest)) :
    SplitsAs bytes i rest := by
  unfold wireMessage at h
  split at h
  · split_ifs at h with hstart h55 hc
    · exact hstart ▸ h55 ▸ splitsAs_statusPath h
    · exact hstart ▸ splitsAs_dataFrame hc h
    · cases h
      exact hstart ▸ ⟨rfl, wf_frameInfoUnrecognized_iff.2 ⟨h55, hc⟩, rfl⟩
  · cases h

theorem receives_of_wire {i : Instr} (hp : i.port = .wire) : receives i = true := by
  cases i with
  | feed | encFrame | encConfig | encFilter | encCancel | init | deinit | illFormedRecord => cases hp
  | _ => rfl

theorem serialBytes_of_wire {i : Instr} (hp : i.port = .wire) : serialBytes i = encode i := if_pos hp

/-- Serial bytes read as a wire row at their head, or as FEED of their first byte. -/
theorem decodeWire_eq_some {bytes rest : List Byte} {i : Instr} (h : decodeWire bytes = some (i, rest)) :
    SplitsAs bytes i rest ∨ ∃ b, i = .feed b ∧ bytes = b :: rest := by
  cases bytes with
  | nil => cases h
  | cons b bs =>
    cases hmsg : wireMessage (b :: bs) with
    | none =>
      simp only [decodeWire, hmsg] at h
      cases h
      exact .inr ⟨b, rfl, rfl⟩
    | some r =>
      simp only [decodeWire, hmsg] at h
      cases h
      exact .inl (splitsAs_of_wireMessage hmsg)

theorem serialBytes_append_of_decodeWire {bytes rest : List Byte} {i : Instr} (h : decodeWire bytes = some (i, rest)) :
    serialBytes i ++ rest = bytes ∧ receives i = true ∧ i.wf = true := by
  obtain ⟨hbytes, hwf, hp⟩ | ⟨b, rfl, rfl⟩ := decodeWire_eq_some h
  · exact ⟨serialBytes_of_wire hp ▸ hbytes, receives_of_wire hp, hwf⟩
  · exact ⟨rfl, rfl, rfl⟩

/-- Settles O48: the case of `decode_encode` at the host port. -/
theorem hostRecordDecodesToItsInstruction : Obligations.HostRecordDecodesToItsInstruction :=
  fun _ hp hwf => hp ▸ decode_encode hwf

/-- Settles O51: every row is read back alone, and whatever follows it. -/
theorem wireMessageDecodesToItsRow : Obligations.WireMessageDecodesToItsRow :=
  fun _ hp hwf => ⟨hp ▸ decode_encode hwf,
    fun rest h10 h12 => decodeWire_of_wireMessage (wireMessage_encode_append hp hwf h10 h12 rest)⟩

/-- Settles O49, operation by operation; a record that spells none is carried whole. -/
theorem everyHostRecordHasOneMeaning : Obligations.EveryHostRecordHasOneMeaning := by
  intro record
  obtain ⟨hbytes, hwf, hp⟩ := isRecordOf_decodeHost record
  exact ⟨hbytes, hwf, hp⟩

/-- Settles O52, row by row; where no row is read, FEED takes the one byte. -/
theorem serialBytesAreSplitExactly : Obligations.SerialBytesAreSplitExactly := by
  intro bytes rest i h
  obtain ⟨hbytes, hrec, hwf⟩ := serialBytes_append_of_decodeWire h
  exact ⟨hbytes, Machine.serialBytes_ne_nil hrec, hrec, hwf⟩

/-- Settles O53: each word is the encoding of a well-formed instruction. -/
theorem sampleWordsDecode : Obligations.SampleWordsDecode :=
  ⟨decode_encode (i := .feed 0xAA) rfl, decode_encode (i := .init ⟨true, false, true⟩) rfl,
    decode_encode (i := .encFilter [0x12345678]) rfl, decode_encode (i := .dataFrameStd false 0x7FF [0x55] 0x55) rfl,
    decode_encode (i := .filterCancel) rfl⟩

end Sys2Proof
end

section
/-! What the bytes of an encoding do: what an encoder sends is its wire row (R81), the checksum (R80), FEEDS and runs of
serial bytes (R91, R92), and the refusal of ill-formed host records (R90). -/

namespace Sys2Proof

open Spec

/-! ### What an encoder sends -/

theorem decodeWire_encode {i : Instr} (hp : i.port = .wire) (hwf : i.wf = true) :
    decodeWire (encode i) = some (i, []) :=
  decodeWire_of_wireMessage (wireMessage_encode hp hwf)

namespace Machine

theorem controlByte_eq_wireControlByte (kind : IdKind) : ∀ dlc : Byte, dlc.toNat ≤ 8 →
    controlByte kind dlc = wireControlByte kind false dlc.toNat := by
  cases kind <;> decide +kernel

theorem idInRange_iff (kind : IdKind) (id : Word32) : idInRange kind id = true ↔ id.toNat ≤ idMax kind := by
  cases kind <;> simp [idInRange, idMax]

/-- The data frame row that ENC_FRAME sends (R111). -/
def sentFrame (kind : IdKind) (id : Word32) (data : List Byte) : Instr :=
  match kind with
  | .standard => .dataFrameStd false (id.setWidth 16) data 0x55
  | .extended => .dataFrameExt false id data 0x55

section
variable (kind : IdKind) (id : Word32) (data : List Byte)

theorem sentFrame_port : (sentFrame kind id data).port = .wire := by
  cases kind <;> rfl

theorem sentFrame_wf (h : data.length ≤ 8) : (sentFrame kind id data).wf = true := by
  cases kind <;> simpa [sentFrame, Instr.wf] using h

theorem sentFrame_contentValid (h : id.toNat ≤ idMax kind) : contentValid (sentFrame kind id data) = true := by
  cases kind with
  | standard =>
    have h : id.toNat ≤ 0x7FF := h
    have hlow : ((id.setWidth 16).setWidth 32).toNat = id.toNat := by
      simp only [BitVec.toNat_setWidth]
      omega
    have hrange : idInRange .standard ((id.setWidth 16).setWidth 32) = true := by
      rw [idInRange_iff, hlow]
      exact h
    simp [sentFrame, contentValid, hrange]
  | extended => simpa [sentFrame, contentValid, idInRange_iff] using h

theorem frameMessage_eq_encode (dlc : Byte) (hdlc : dlc.toNat ≤ 8) (hdata : data.length = 8) :
    frameMessage kind id dlc data = encode (sentFrame kind id (data.take dlc.toNat)) := by
  have hlen : (data.take dlc.toNat).length = dlc.toNat := by simp; omega
  cases kind <;>
    simp only [frameMessage, sentFrame, encode, idField, hlen, controlByte_eq_wireControlByte _ dlc hdlc]

end

theorem configMessage_eq_encode (baud kind : Byte) (filterId maskId : Word32) (mode : Byte) :
    configMessage baud kind filterId maskId mode = encode (.configMsg baud kind filterId maskId mode 0x01 [0, 0, 0, 0]
      (byteSum ([0x12, baud, kind] ++ le32 filterId ++ le32 maskId ++ [mode, 0x01] ++ [0, 0, 0, 0]))) :=
  rfl

/-- The checksum's range `[2, 4 + 4n)` is the body from its discriminator on (R77, R113). -/
theorem filterMessage_eq_encode (ids : List Word32) : filterMessage ids =
    encode (.filterEnable ids (byteSum ([0x10, BitVec.ofNat 8 ids.length] ++ ids.flatMap le32))) := by
  have hlen := flatMap_le32_length ids
  have hsum : checksum ([0xAA, 0x55, 0x10, BitVec.ofNat 8 ids.length] ++ ids.flatMap le32) 2 (4 + 4 * ids.length) =
      byteSum ([0x10, BitVec.ofNat 8 ids.length] ++ ids.flatMap le32) :=
    congrArg byteSum (List.take_of_length_le (by simp [-List.length_flatMap, hlen]; omega))
  simp only [filterMessage, hsum, encode]

/-! ### The checksum -/

theorem toNat_foldl_add (bytes : List Byte) (acc : Byte) :
    (bytes.foldl (· + ·) acc).toNat = (acc.toNat + (bytes.map BitVec.toNat).sum) % 256 := by
  induction bytes generalizing acc with
  | nil => simp [Nat.mod_eq_of_lt acc.isLt]
  | cons b bytes ih =>
    rw [List.foldl_cons, ih, BitVec.toNat_add, List.map_cons, List.sum_cons]
    omega

theorem toNat_byteSum (bytes : List Byte) : (byteSum bytes).toNat = (bytes.map BitVec.toNat).sum % 256 := by
  simp [byteSum, toNat_foldl_add]

theorem byteSum_eq_sumMod256 (bytes : List Byte) : byteSum bytes = sumMod256 bytes :=
  BitVec.eq_of_toNat_eq (by rw [toNat_byteSum, sumMod256, BitVec.toNat_ofNat])

theorem take_drop_eq_map_getD (m : List Byte) {lo n : Nat} (h : lo + n ≤ m.length) :
    (m.drop lo).take n = (List.range n).map fun i => m.getD (lo + i) 0 := by
  apply List.ext_getElem
  · simp; omega
  · intro i h1 h2
    have hi : lo + i < m.length := by simp at h1; omega
    simp [List.getD_eq_getElem?_getD, hi]

/-! ### FEEDS and serial bytes -/

/-- FEEDS is one FEED operation per byte (R92). -/
theorem runAll_map_feed (bytes : List Byte) (s : State) : runAll (bytes.map .feed) s = feedBytes bytes s := by
  induction bytes generalizing s with
  | nil => rfl
  | cons b bytes ih =>
    rw [List.map_cons, runAll_cons, feedBytes_cons, funext ih]
    rfl

theorem exec_wire {i : Instr} (hp : i.port = .wire) (s : State) : exec i s = feedBytes (encode i) s := by
  rw [exec_of_receives (receives_of_wire hp), serialBytes_of_wire hp]

theorem exists_decodeWire {bytes : List Byte} (h : bytes ≠ []) : ∃ i left, decodeWire bytes = some (i, left) := by
  cases bytes with
  | nil => exact absurd rfl h
  | cons b bs => exact ⟨_, _, rfl⟩

/-! ### The refusal of ill-formed records -/

/-- The entry checks of R216 refuse overlaps only. -/
theorem guarded_ne_illFormedRecord {c : OpClass} {s : State} {body : State → Out}
    (hbody : body (s.returning none) ≠ .refused .illFormedRecord) : guarded c s body ≠ .refused .illFormedRecord := by
  have hstart : afterLifecycle s body ≠ .refused .illFormedRecord := by
    unfold afterLifecycle
    split_ifs
    · exact nofun
    · exact hbody
  unfold guarded
  split_ifs
  · exact nofun
  cases s.session.life with
  | live =>
    cases c with
    | init => exact nofun
    | _ => exact hstart
  | absent | released =>
    cases c with
    | init => exact hstart
    | _ => exact nofun

theorem feedByte_ne_illFormedRecord (b : Byte) {s : State} (hq : s.NextSinkQuiet) :
    feedByte b s ≠ .refused .illFormedRecord := by
  refine guarded_ne_illFormedRecord ?_
  unfold feedBody
  cases receive b (s.returning none).session with
  | error f => exact nofun
  | ok r =>
    obtain ⟨after, ev⟩ := r
    cases ev with
    | none => exact nofun
    | some e =>
      simp only [deliver]
      rw [emit_quiet (s := s.returning none) hq]
      exact nofun

theorem encoderOp_ne_illFormedRecord (valid : Bool) (bytes : List Byte) {s : State} (hq : s.NextSinkQuiet) :
    encoderOp valid bytes s ≠ .refused .illFormedRecord := by
  refine guarded_ne_illFormedRecord ?_
  cases valid with
  | false => exact nofun
  | true =>
    rw [if_pos rfl, sendBytes_quiet (s := s.returning none) hq]
    exact nofun

/-- Of the host's instructions only the ill-formed record is refused so, where the next sink call is quiet. -/
theorem exec_ne_illFormedRecord {i : Instr} {s : State} (hp : i.port = .host) (hi : ∀ r, i ≠ .illFormedRecord r)
    (hq : s.NextSinkQuiet) : exec i s ≠ .refused .illFormedRecord := by
  cases i with
  | feed b => exact feedByte_ne_illFormedRecord b hq
  | encFrame | encConfig | encFilter | encCancel => exact encoderOp_ne_illFormedRecord _ _ hq
  | init | deinit => exact guarded_ne_illFormedRecord nofun
  | illFormedRecord r => exact absurd rfl (hi r)
  | _ => cases hp

end Machine

theorem kindOperand_iff : ∀ b : Byte, (b == 0x00 || b == 0x01) = true ↔ b.toNat < 2 := by decide +kernel

theorem sinkOperand_iff : ∀ b : Byte, (b &&& 0xF8 == 0x00) = true ↔ b.toNat < 8 := by decide +kernel

/-- The shapes of R89, operation by operation. -/
theorem recordWellFormed_iff_shape (record : List Byte) : recordWellFormed record = true ↔
    ∃ op args, record = op :: args ∧
      ((op = 0x01 ∧ args.length = 1) ∨
       (op = 0x02 ∧ args.length = 14 ∧ (args.headD 0).toNat < 2) ∨
       (op = 0x03 ∧ args.length = 11) ∨
       (op = 0x04 ∧ args.length = 1 + 4 * (args.headD 0).toNat ∧ args ≠ []) ∨
       (op = 0x05 ∧ args = []) ∨
       (op = 0x06 ∧ args.length = 1 ∧ (args.headD 0).toNat < 8) ∨
       (op = 0x07 ∧ args = [])) := by
  cases record with
  | nil => simp [recordWellFormed]
  | cons op args =>
    simp only [recordWellFormed]
    split_ifs with h1 h2 h3 h4 h5 h6 h7
    · simp [h1]
    · rw [Bool.and_eq_true, kindOperand_iff]
      simp [h2]
    · simp [h3]
    · simp [h4, and_comm]
    · simp [h5]
    · rw [Bool.and_eq_true, sinkOperand_iff]
      simp [h6]
    · simp [h7]
    · refine iff_of_false nofun ?_
      rintro ⟨_, _, hcons, hshape⟩
      cases hcons
      simp only [h1, h2, h3, h4, h5, h6, h7, false_and, or_self] at hshape

theorem ne_illFormedRecord_of_wellFormed {record : List Byte} (h : recordWellFormed record = true) (r : List Byte) :
    decodeHost record ≠ .illFormedRecord r := by
  intro hill
  obtain ⟨hbytes, hwf, -⟩ := isRecordOf_decodeHost record
  rw [hill] at hbytes hwf
  obtain rfl : r = record := hbytes
  simp [Instr.wf, h] at hwf

/-- Settles O13: what each encoder sends is the encoding of a well-formed row. -/
theorem encoderOutputIsItsWireRow : Obligations.EncoderOutputIsItsWireRow := by
  refine ⟨fun kind id dlc data hdlc hdata => ?_, fun baud kind filterId maskId mode => ?_, fun ids h1 h255 => ?_,
    decodeWire_encode (i := .filterCancel) rfl rfl⟩
  · have hwf := Machine.sentFrame_wf kind id (data.take dlc.toNat) (by simp; omega)
    refine ⟨Machine.sentFrame kind id (data.take dlc.toNat), ?_, hwf, Machine.sentFrame_contentValid kind id _, ?_⟩
    · rw [Machine.frameMessage_eq_encode kind id data dlc hdlc hdata]
      exact decodeWire_encode (Machine.sentFrame_port kind id _) hwf
    · cases kind <;> rfl
  · rw [Machine.configMessage_eq_encode]
    exact ⟨_, decodeWire_encode rfl rfl, by simp [Machine.contentValid]⟩
  · rw [Machine.filterMessage_eq_encode]
    have hne : ids ≠ [] := List.length_pos_iff.1 h1
    exact ⟨_, decodeWire_encode rfl (wf_filterEnable_iff.2 ⟨h255, fun h => hne h.1⟩),
      by simp [Machine.contentValid, Machine.encFilterValid, h1, h255]⟩

/-- Settles O54: both checksums are `byteSum`, whose value is the sum modulo 256. -/
theorem checksumIsTheSumModulo256 : Obligations.ChecksumIsTheSumModulo256 := by
  refine ⟨fun m lo hi hle hlen => ?_, fun r b => ?_⟩
  · rw [Machine.checksum, Machine.toNat_byteSum, Machine.take_drop_eq_map_getD m (by omega), List.map_map]
    rfl
  · rw [Machine.statusChecksumOk, beq_iff_eq, ← BitVec.toNat_inj, Machine.toNat_byteSum, Machine.RxBuffer.slice_eq,
      List.map_map]
    exact eq_comm

/-- Settles O39, by induction on the bytes of the row. -/
theorem wireMessagesAreTheirFeeds : Obligations.WireMessagesAreTheirFeeds := by
  intro i s hp
  rw [Machine.exec_wire hp, Machine.runAll_map_feed]

/-- Settles O40: a slot is a listed byte or one of the zeros appended to the list. -/
theorem assemblyFormsExpand : Obligations.AssemblyFormsExpand := by
  refine ⟨Machine.runAll_map_feed, fun kind id dlc data hlen => ⟨_, rfl, by simp, fun k hk => ?_⟩⟩
  rw [List.getElem?_take_of_lt hk]
  obtain h | h := lt_or_ge k data.length
  · rw [List.getElem?_append_left h, List.getD_eq_getElem _ _ h, List.getElem?_eq_getElem h]
  · rw [List.getElem?_append_right h, List.getElem?_replicate_of_lt (by omega), List.getD_eq_default _ _ h]

/-- Settles O58: the bytes taken are those of the instruction read. -/
theorem stepOnSerialBytesIsFeeds : Obligations.StepOnSerialBytesIsFeeds := by
  intro s bytes overlaps rest hne hin
  obtain ⟨i, left, hdec⟩ := Machine.exists_decodeWire hne
  obtain ⟨rfl, hrec, -⟩ := serialBytes_append_of_decodeWire hdec
  refine ⟨(serialBytes i).length, List.length_pos_iff.2 (Machine.serialBytes_ne_nil hrec), by simp, ?_⟩
  rw [Machine.step_of_decode hin hdec, Machine.exec_of_receives hrec, List.take_left, List.drop_left]
  rfl

/-- Settles O50: a record is refused exactly where it spells no operation; a quiet sink refuses nothing. -/
theorem illFormedRecordsAreRefused : Obligations.IllFormedRecordsAreRefused := by
  intro record s rest hin
  have hstep := Machine.step_of_decode hin (i := decodeHost record) (left := []) rfl
  refine ⟨fun hill => ⟨decodeHost_of_not_wellFormed hill, ?_⟩, ne_illFormedRecord_of_wellFormed, fun hwf hq => ?_,
    fun _ _ => rfl, fun u hu => Machine.guarded_ready _ hu (by decide), recordWellFormed_iff_shape record⟩
  · rw [hstep, decodeHost_of_not_wellFormed hill]
    rfl
  · rw [hstep]
    exact Machine.exec_ne_illFormedRecord (isRecordOf_decodeHost record).port
      (ne_illFormedRecord_of_wellFormed hwf) hq.next

end Sys2Proof
end

section
/-! What becomes of a wire message that arrives while no message is in progress (R142 to R149), and that a delivered
frame is valid (R93). -/

namespace Sys2Proof

open Spec

namespace Machine

/-! ### Delivered frames -/

/-- Only the end of a data frame completes a frame event (R147). -/
theorem detectState_of_frame {b : Byte} {ses ses' : Session} {f : Frame}
    (h : receive b ses = .ok (ses', some (.frame f))) : ses.detectState = .eof := by
  cases hd : ses.detectState with
  | waitStart => simp [receive_waitStart b hd] at h
  | frameInfo => simp [receive_frameInfo b _ hd rfl] at h
  | eof => rfl
  | idStd =>
    have hc := receive_cursor_lt (by simp [hd]) (by simp [hd]) h
    simp [receive_id b _ 4 (.inl ⟨hd, rfl⟩) hc rfl] at h
  | idExt =>
    have hc := receive_cursor_lt (by simp [hd]) (by simp [hd]) h
    simp [receive_id b _ 6 (.inr ⟨hd, rfl⟩) hc rfl] at h
  | data =>
    have hc := receive_cursor_lt (by simp [hd]) (by simp [hd]) h
    simp [receive_data b _ hd hc rfl] at h
  | controllerStatus =>
    have hc := receive_cursor_lt (by simp [hd]) (by simp [hd]) h
    rw [receive_controllerStatus b _ hd hc rfl] at h
    split_ifs at h <;> simp at h

theorem frameValid_of_receive {b : Byte} {ses ses' : Session} {e : Event} (ht : ses.Table)
    (h : receive b ses = .ok (ses', some e)) : frameValid e.entry := by
  cases e with
  | status txErr rxErr => trivial
  | frame f =>
    have hd := detectState_of_frame h
    obtain ⟨-, -, -, -, -, heof, -⟩ := ht
    obtain ⟨-, -, h8⟩ := heof hd
    obtain ⟨-, hnone | ⟨f', hf, -, -, -, hdlc, hdata, hrange⟩⟩ := receive_eof_cases hd h
    · cases hnone
    · cases hf
      exact ⟨hdlc ▸ h8, hdata, (idInRange_iff _ _).1 hrange⟩

theorem frameValid_of_not_isEvent {e : TraceEntry} (h : isEvent e = false) : frameValid e := by
  cases e with
  | frameEvent => cases h
  | _ => trivial

/-- Every frame event of the trace is a valid frame (R93, R84). -/
abbrev State.FramesValid (s : State) : Prop := ∀ e ∈ s.trace, frameValid e

theorem State.FramesValid.append {s t : State} {entries : List TraceEntry} (hv : s.FramesValid)
    (ht : t.trace = s.trace ++ entries) (hentries : ∀ e ∈ entries, frameValid e) : t.FramesValid := by
  intro e he
  rw [ht] at he
  exact (List.mem_append.1 he).elim (hv e) (hentries e)

theorem feedByte_keeps_framesValid {b : Byte} {s t : State} (hi : s.Inv) (hv : s.FramesValid)
    (h : feedByte b s = .next t) : t.FramesValid := by
  obtain ⟨-, -, hlive⟩ := hi
  obtain ⟨⟨hl, -, -⟩, ses', ev, hrec, ⟨-, rfl⟩ | ⟨e, rfl, -, -, rfl⟩⟩ := feedByte_eq_next h
  · exact hv
  · obtain ⟨htable, -, -⟩ := hlive hl
    exact hv.append rfl (List.forall_mem_singleton.2 (frameValid_of_receive htable hrec))

theorem feedBytes_keeps_framesValid {bytes : List Byte} {s t : State} (hi : s.Inv) (hv : s.FramesValid)
    (h : feedBytes bytes s = .next t) : t.FramesValid := by
  induction bytes generalizing s with
  | nil =>
    cases h
    exact hv
  | cons b bytes ih =>
    obtain ⟨u, hb, hrest⟩ := andThen_eq_next h
    exact ih (feedByte_keeps_inv hi hb) (feedByte_keeps_framesValid hi hv hb) hrest

theorem exec_keeps_framesValid {i : Instr} {s t : State} (hi : s.Inv) (hv : s.FramesValid)
    (h : exec i s = .next t) : t.FramesValid := by
  obtain ⟨-, hfeeds⟩ | ⟨-, valid, bytes, henc⟩ | ⟨sinks, -, hinit⟩ | ⟨-, hdeinit⟩ := exec_eq_next h
  · exact feedBytes_keeps_framesValid hi hv hfeeds
  · obtain ⟨entries, ht, hentries⟩ := encoderOp_trace henc
    exact hv.append ht fun e he => frameValid_of_not_isEvent (hentries e he)
  · obtain ⟨-, -, -, rfl⟩ := execInit_eq_next hinit
    exact hv
  · obtain ⟨-, rfl⟩ := execDeinit_eq_next hdeinit
    exact hv

theorem step_keeps_framesValid {s t : State} (hi : s.Inv) (hv : s.FramesValid) (h : step s = .next t) :
    t.FramesValid := by
  obtain rfl | ⟨rest, rfl⟩ | ⟨i, rest, overlaps, hexec⟩ := step_eq_next h
  · exact hv
  · exact hv
  · exact exec_keeps_framesValid (s := { s with input := rest, overlapping := overlaps }) hi hv hexec

/-! ### The byte that ends a message -/

theorem delivered_ite (p : Prop) [Decidable p] (e : Event) (ses : Session) :
    delivered (if p then some e else none) ses = if p ∧ e.sinkPresent ses = true then [e.entry] else [] := by
  by_cases hp : p <;> simp [delivered, hp]

/-- FEED in a ready state whose next sink call is quiet. -/
theorem feedByte_delivered {b : Byte} {s : State} {ses' : Session} {ev : Option Event} (hr : s.Ready)
    (hq : s.NextSinkQuiet) (hrec : receive b s.session = .ok (ses', ev)) :
    ∃ t, feedByte b s = .next t ∧ t.session = ses' ∧ t.trace = s.trace ++ delivered ev s.session := by
  cases ev with
  | none => exact ⟨_, feedByte_none hr hrec, rfl, (List.append_nil _).symm⟩
  | some e =>
    obtain ⟨habsent, hpresent⟩ := feedByte_some hr hrec
    cases hp : e.sinkPresent s.session with
    | false => exact ⟨_, habsent hp, rfl, by simp [delivered, hp]⟩
    | true => exact ⟨_, hpresent hp hq, rfl, by simp [delivered, hp]⟩

/-- A run without an event, and then the byte that ends the message. -/
theorem SilentRun.feedBytes_last {bs : List Byte} {b : Byte} {s : State} {ses1 ses2 : Session} {ev : Option Event}
    (hrun : SilentRun bs s.session ses1) (hne : bs ≠ []) (hr : s.Ready) (hq : s.NextSinkQuiet)
    (hrec : receive b ses1 = .ok (ses2, ev)) :
    ∃ t, Machine.feedBytes (bs ++ [b]) s = .next t ∧ t.session = ses2 ∧ t.trace = s.trace ++ delivered ev ses1 := by
  obtain ⟨hfeeds, hlive⟩ := hrun.feedBytes hr rfl (.inr hne)
  obtain ⟨t, ht, hsession, htrace⟩ :=
    feedByte_delivered (s := { s with returned := none, session := ses1 }) ⟨hlive, hr.2⟩ hq hrec
  refine ⟨t, ?_, hsession, htrace⟩
  rw [feedBytes_append, hfeeds, andThen_next, feedBytes_cons, ht]
  rfl

/-! ### Data frames and status reports -/

theorem RxBuffer.writeAll_concat (r : RxBuffer) (bs : List Byte) (b : Byte) : r.writeAll 0 (bs ++ [b]) =
    { r.writeAll 0 bs with cells := (r.writeAll 0 bs).cells.write bs.length b } := by
  rw [writeAll_append, Nat.zero_add]
  rfl

theorem value_record_le16 (id : Word16) : (IdBytes.zero.record (le16 id)).value = BitVec.ofNat 32 id.toNat := by
  have hlow : (id.extractLsb' 0 8).toNat = id.toNat % 256 := by simp
  have hhigh : (id.extractLsb' 8 8).toNat = id.toNat / 256 % 256 := by simp [Nat.shiftRight_eq_div_pow]
  have hlt := id.isLt
  have hword : (IdBytes.zero.record (le16 id)).value = word32 (id.extractLsb' 0 8) (id.extractLsb' 8 8) 0 0 := rfl
  refine BitVec.eq_of_toNat_eq ?_
  rw [hword, word32_toNat, hlow, hhigh, BitVec.toNat_ofNat]
  simp only [BitVec.ofNat_eq_ofNat, BitVec.toNat_ofNat]
  omega

theorem value_record_le32 (id : Word32) : (IdBytes.zero.record (le32 id)).value = id :=
  word32_le32 id

/-- A data frame received while no message is in progress (R147, R149). -/
theorem feedBytes_dataFrame {k : IdKind} {ids data : List Byte} {id : Word32} {s : State} (bit4 : Bool) (eof : Byte)
    (h8 : data.length ≤ 8) (hl : ids.length = idLength k) (hid : (IdBytes.zero.record ids).value = id)
    (hr : s.Ready) (hidle : s.session.Idle) (hq : s.NextSinkQuiet) :
    ∃ t, feedBytes ([0xAA, wireControlByte k bit4 data.length] ++ ids ++ data ++ [eof]) s = .next t ∧
      t.session = { s.session with rxBuffer :=
        s.session.rxBuffer.writeAll 0 ([0xAA, wireControlByte k bit4 data.length] ++ ids ++ data ++ [eof]) } ∧
      t.trace = s.trace ++ (if (eof = 0x55 ∧ id.toNat ≤ idMax k) ∧ s.session.frameSinkPresent = true
        then [.frameEvent ⟨k, id, data.length, data⟩] else []) := by
  have hdlc := dlcField_wireControlByte k bit4 _ h8
  have hoff : dataOffset k = ([0xAA, wireControlByte k bit4 data.length] ++ ids).length := by
    cases k <;> simp [dataOffset, hl, idLength]
  have hend : dataOffset k + data.length = ([0xAA, wireControlByte k bit4 data.length] ++ ids ++ data).length := by
    rw [hoff, ← List.length_append]
  have hdata : (s.session.rxBuffer.writeAll 0 ([0xAA, wireControlByte k bit4 data.length] ++ ids ++ data)).slice
      (dataOffset k) data.length = data := by
    simpa [hoff] using
      s.session.rxBuffer.slice_writeAll 0 ([0xAA, wireControlByte k bit4 data.length] ++ ids) data []
  have hcursor : dataOffset k + data.length < 20 := by cases k <;> simp [dataOffset] <;> omega
  obtain ⟨t, ht, hsession, htrace⟩ := (silentRun_frame s.session hidle k bit4 ids data h8 hl).feedBytes_last
    (by simp) hr hq (receive_eof eof _ ⟨k, id, data.length, data⟩ rfl hcursor
      (by simp [Session.dataEnd, hdlc]) rfl (by simp only [hid, hdlc, hdata]))
  refine ⟨t, ht, ?_, ?_⟩
  · rw [hsession, hidle.resetMessage_eq, RxBuffer.writeAll_concat, ← hend]
  · simp only [htrace, delivered_ite, idInRange_iff]
    rfl

/-- A status report received while no message is in progress (R148). -/
theorem feedBytes_statusReport {rsv0 rxErr txErr : Byte} {rsv1 : List Byte} {s : State} (sum : Byte)
    (hl : rsv1.length = 13) (hr : s.Ready) (hidle : s.session.Idle) (hq : s.NextSinkQuiet) :
    ∃ t, feedBytes ([0xAA, 0x55, 0x04, rsv0, rxErr, txErr] ++ rsv1 ++ [sum]) s = .next t ∧
      t.session = { s.session with rxBuffer :=
        s.session.rxBuffer.writeAll 0 ([0xAA, 0x55, 0x04, rsv0, rxErr, txErr] ++ rsv1 ++ [sum]) } ∧
      t.trace = s.trace ++ (if sum = sumMod256 ([0x04, rsv0, rxErr, txErr] ++ rsv1) ∧
        s.session.statusSinkPresent = true then [.statusEvent txErr rxErr] else []) := by
  have hslice : (s.session.rxBuffer.writeAll 0 ([0xAA, 0x55, 0x04, rsv0, rxErr, txErr] ++ rsv1)).slice 2 17 =
      [0x04, rsv0, rxErr, txErr] ++ rsv1 := by
    simpa [hl] using s.session.rxBuffer.slice_writeAll 0 [0xAA, 0x55] ([0x04, rsv0, rxErr, txErr] ++ rsv1) []
  have hrec := receive_controllerStatus (ses := { s.session with
    rxBuffer := s.session.rxBuffer.writeAll 0 ([0xAA, 0x55, 0x04, rsv0, rxErr, txErr] ++ rsv1)
    cursor := 19
    detectState := .controllerStatus
    pendingRxErr := rxErr
    pendingTxErr := txErr }) sum _ rfl (by dsimp only; omega) rfl
  rw [if_pos rfl] at hrec
  obtain ⟨t, ht, hsession, htrace⟩ :=
    (silentRun_status s.session hidle rsv0 rxErr txErr rsv1 hl).feedBytes_last (by simp) hr hq hrec
  refine ⟨t, ht, ?_, ?_⟩
  · have hend : ([0xAA, 0x55, 0x04, rsv0, rxErr, txErr] ++ rsv1).length = 19 := by simp [hl]
    rw [hsession, hidle.resetMessage_eq, RxBuffer.writeAll_concat, hend]
  · simp only [htrace, delivered_ite, statusChecksumOk, hslice, beq_iff_eq, byteSum_eq_sumMod256, eq_comm (b := sum)]
    rfl

/-! ### Messages that are abandoned -/

/-- The start byte and the byte that says which message it is (R142, R143). -/
theorem silentRun_start {ses : Session} (h : ses.Idle) (b : Byte) :
    SilentRun [0xAA, b] ses
      (if b = 0x55 then
        { ses with rxBuffer := ses.rxBuffer.writeAll 0 [0xAA, b], cursor := 2, detectState := .controllerStatus }
       else if isControlByte b then
         if 8 < (dlcField b).toNat then { ses with rxBuffer := ses.rxBuffer.writeAll 0 [0xAA, b] }
         else
           { ses with
             rxBuffer := ses.rxBuffer.writeAll 0 [0xAA, b]
             cursor := 2
             pendingDlc := dlcField b
             pendingType := kindField b
             detectState := match kindField b with | .extended => .idExt | .standard => .idStd }
       else
        { ses with rxBuffer := ses.rxBuffer.writeAll 0 [0xAA, b], cursor := 1, detectState := .frameInfo }) := by
  have hstart := receive_waitStart 0xAA h.1
  rw [if_pos rfl] at hstart
  have hsecond := receive_frameInfo (ses :=
    { ses with
      rxBuffer := { ses.rxBuffer with cells := ses.rxBuffer.cells.write 0 0xAA }
      cursor := 1
      detectState := .frameInfo }) b _ rfl rfl
  rw [h.resetMessage_eq] at hsecond
  exact .cons hstart (.cons hsecond (.nil _))

/-- A control byte of DLC 9..15 ends the message (R143). -/
theorem silentRun_dlcInvalid {ses : Session} (h : ses.Idle) {ctrl : Byte} (hc : isControlByte ctrl = true)
    (hd : 8 < (dlcField ctrl).toNat) :
    SilentRun [0xAA, ctrl] ses { ses with rxBuffer := ses.rxBuffer.writeAll 0 [0xAA, ctrl] } := by
  have h55 : ctrl ≠ 0x55 := by rintro rfl; exact absurd hc (by decide)
  simpa only [if_neg h55, if_pos hc, if_pos hd] using silentRun_start h ctrl

/-- An unrecognized byte leaves `FrameInfo` (R143). -/
theorem silentRun_unrecognized {ses : Session} (h : ses.Idle) {b : Byte} (h55 : b ≠ 0x55)
    (hc : ¬ isControlByte b = true) :
    SilentRun [0xAA, b] ses
      { ses with rxBuffer := ses.rxBuffer.writeAll 0 [0xAA, b], cursor := 1, detectState := .frameInfo } := by
  simpa only [if_neg h55, if_neg hc] using silentRun_start h b

/-- A discriminator other than 0x04 ends the message (R148). -/
theorem silentRun_otherDisc {ses : Session} (h : ses.Idle) {disc : Byte} (hd : disc ≠ 0x04) :
    SilentRun [0xAA, 0x55, disc] ses { ses with rxBuffer := ses.rxBuffer.writeAll 0 [0xAA, 0x55, disc] } := by
  have hdisc := receive_controllerStatus (ses :=
    { ses with rxBuffer := ses.rxBuffer.writeAll 0 [0xAA, 0x55], cursor := 2, detectState := .controllerStatus })
    disc _ rfl (by dsimp only; omega) rfl
  rw [if_neg (by dsimp only; omega), if_pos ⟨rfl, hd⟩, h.resetMessage_eq] at hdisc
  exact (silentRun_statusHeader ses h).append (.cons hdisc (.nil _))

/-- Outside a message, bytes other than the start byte change nothing (R142). -/
theorem silentRun_ignored {bytes : List Byte} {ses : Session} (hd : ses.detectState = .waitStart)
    (h : ∀ b ∈ bytes, b ≠ 0xAA) : SilentRun bytes ses ses := by
  induction bytes with
  | nil => exact .nil ses
  | cons b bytes ih =>
    obtain ⟨hb, hrest⟩ := List.forall_mem_cons.1 h
    have hrec := receive_waitStart b hd
    rw [if_neg hb] at hrec
    exact .cons hrec (ih hrest)

theorem feedBytes_ignored {bytes : List Byte} {s : State} (hr : s.Ready) (hn : s.returned = none)
    (hd : s.session.detectState = .waitStart) (h : ∀ b ∈ bytes, b ≠ 0xAA) : feedBytes bytes s = .next s := by
  rw [((silentRun_ignored hd h).feedBytes hr rfl (.inl hn)).1, ← hn]

/-- A message abandoned at its discriminator, and the bytes that follow it. -/
theorem feedBytes_otherDisc {s : State} {disc : Byte} (rest : List Byte) (hr : s.Ready) (hidle : s.session.Idle)
    (hd : disc ≠ 0x04) :
    feedBytes ([0xAA, 0x55, disc] ++ rest) s = feedBytes rest { s with
      returned := none
      session := { s.session with rxBuffer := s.session.rxBuffer.writeAll 0 [0xAA, 0x55, disc] } } := by
  obtain ⟨hfeeds, -⟩ := (silentRun_otherDisc hidle hd).feedBytes hr rfl (.inr (by simp))
  rw [feedBytes_append, hfeeds, andThen_next]

end Machine

/-- Settles O33: only the end of a data frame adds a frame event, and the table of R36 bounds its DLC. -/
theorem deliveredFramesAreValid : Obligations.DeliveredFramesAreValid :=
  fun _ _ => Machine.step_keeps_framesValid

/-- Settles O41: a data frame of two identifier bytes. -/
theorem standardDataFrameReceived : Obligations.StandardDataFrameReceived := by
  intro bit4 id data eof s h8 hr hidle hq
  obtain ⟨t, ht, hsession, htrace⟩ := Machine.feedBytes_dataFrame (k := .standard) bit4 eof h8 (ids := le16 id) rfl
    (Machine.value_record_le16 id) hr hidle hq
  have hid : (BitVec.ofNat 32 id.toNat).toNat = id.toNat := by simp; omega
  refine ⟨t, ht, by rw [hsession], fun a => ?_, ?_⟩
  · rw [hsession]
    exact Machine.RxBuffer.read_writeAll_zero _ _ a
  · simp only [htrace, hid, and_assoc]
    rfl

/-- Settles O42: a data frame of four identifier bytes. -/
theorem extendedDataFrameReceived : Obligations.ExtendedDataFrameReceived := by
  intro bit4 id data eof s h8 hr hidle hq
  obtain ⟨t, ht, hsession, htrace⟩ := Machine.feedBytes_dataFrame (k := .extended) bit4 eof h8 (ids := le32 id) rfl
    (Machine.value_record_le32 id) hr hidle hq
  refine ⟨t, ht, by rw [hsession], fun a => ?_, ?_⟩
  · rw [hsession]
    exact Machine.RxBuffer.read_writeAll_zero _ _ a
  · simp only [htrace, and_assoc]
    rfl

/-- Settles O43: the checksum's 17 bytes are the message from its discriminator on. -/
theorem statusReportReceived : Obligations.StatusReportReceived := by
  intro rsv0 rxErr txErr rsv1 sum s hl hr hidle hq
  obtain ⟨t, ht, hsession, htrace⟩ := Machine.feedBytes_statusReport sum hl hr hidle hq
  refine ⟨t, ht, by rw [hsession], fun a => ?_, htrace⟩
  rw [hsession]
  exact Machine.RxBuffer.read_writeAll_zero _ _ a

/-- A command row begins with the status path's header and a discriminator other than 0x04 (R85). -/
theorem encode_command {i : Instr} {disc : Byte}
    (h : (∃ baud kind f m mode const rsv sum, i = .configMsg baud kind f m mode const rsv sum ∧ disc = 0x12) ∨
      (∃ ids sum, i = .filterEnable ids sum ∧ disc = 0x10) ∨ (i = .filterCancel ∧ disc = 0x10) ∨
      (i = .statusPathOtherDisc disc ∧ disc ≠ 0x04)) :
    i.port = .wire ∧ disc ≠ 0x04 ∧ encode i = [0xAA, 0x55, disc] ++ (encode i).drop 3 := by
  obtain ⟨baud, kind, f, m, mode, const, rsv, sum, rfl, rfl⟩ | ⟨ids, sum, rfl, rfl⟩ | ⟨rfl, rfl⟩ | ⟨rfl, hd⟩ := h
  · exact ⟨rfl, by decide, rfl⟩
  · exact ⟨rfl, by decide, rfl⟩
  · exact ⟨rfl, by decide, rfl⟩
  · exact ⟨rfl, hd, rfl⟩

/-- Settles O45: the discriminator ends the message, and bytes outside a message are ignored. -/
theorem commandMessagesAreAbandoned : Obligations.CommandMessagesAreAbandoned := by
  rintro i s abandoned disc hi hr hidle rfl
  obtain ⟨hp, hd, hbytes⟩ := encode_command hi
  have hfeeds := Machine.feedBytes_otherDisc ((encode i).drop 3) hr hidle hd
  rw [← hbytes, ← Machine.exec_wire hp] at hfeeds
  exact ⟨hfeeds, fun hrest => hfeeds.trans (Machine.feedBytes_ignored hr rfl hidle.1 hrest)⟩

/-- Settles O46: what the byte after the start byte does in `FrameInfo`, by the value of that byte. -/
theorem reservedFrameInfoBytesReceived : Obligations.ReservedFrameInfoBytesReceived := by
  refine fun s hr hidle => ⟨fun ctrl hctrl hdlc => ?_, fun b hb h55 => ?_⟩
  · obtain ⟨hc, hd, -⟩ := controlByte_fields ctrl
    exact ((Machine.silentRun_dlcInvalid hidle (hc.2 hctrl) (hd ▸ hdlc)).feedBytes hr rfl (.inr (by simp))).1
  · obtain ⟨hc, -, -⟩ := controlByte_fields b
    exact ((Machine.silentRun_unrecognized hidle h55 fun h => absurd (hc.1 h) (by omega)).feedBytes hr rfl
      (.inr (by simp))).1

end Sys2Proof
end

section
/-! The encoder operations (40_encoder.md): every outcome of the template of R110, what the four operations send (R111
to R114), that they read `life` and `byteSinkPresent` only (R115), and the round trip of a data frame. -/

namespace Sys2Proof

open Spec

namespace Machine

/-! ### The template of R110, outcome by outcome -/

theorem toResult_eq_resultOf (a : SinkAnswer) : SinkAnswer.toResult a = resultOf a := by
  cases a <;> rfl

/-- What an encoder operation leaves behind when the byte sink has answered `a` (R110). -/
def State.sent (s : State) (bytes : List Byte) (a : SinkAnswer) : State :=
  { s with
    sinkConduct := s.sinkConduct.tail
    byteSinkAnswers := s.byteSinkAnswers.tail
    draws := s.draws + 1
    trace := s.trace ++ [.sendBytes bytes a, .result (resultOf a)]
    returned := some (.encoder (resultOf a)) }

/-- With no sink call in progress, the state that `sendBytes` makes is `State.sent`. -/
theorem encoderReturns_eq_sent {s : State} (bytes : List Byte) (a : SinkAnswer) (hp : s.sinkCallInProgress = false) :
    ({ s with
      returned := none
      sinkCallInProgress := false
      sinkConduct := s.sinkConduct.tail
      byteSinkAnswers := s.byteSinkAnswers.tail
      draws := s.draws + 1
      trace := s.trace ++ [.sendBytes bytes a] } : State).encoderReturns (SinkAnswer.toResult a) = s.sent bytes a := by
  simp [State.encoderReturns, State.traced, State.returning, State.sent, toResult_eq_resultOf, hp]

section
variable {s : State} {valid : Bool} {bytes : List Byte}

theorem encoderOp_overlapping (ho : s.overlapping = true) : encoderOp valid bytes s = .refused .concurrentCall :=
  if_pos ho

theorem encoderOp_released (ho : s.overlapping = false) (hl : s.session.life = .released) :
    encoderOp valid bytes s = .fault .useAfterDeinit := by
  unfold encoderOp guarded
  rw [if_neg (by simp [ho]), hl]

theorem encoderOp_absent (ho : s.overlapping = false) (hl : s.session.life = .absent) :
    encoderOp valid bytes s = .next (s.encoderReturns .invalidArgument) := by
  unfold encoderOp guarded
  rw [if_neg (by simp [ho]), hl]

/-- R216 step 3, and the step before it for INIT. -/
theorem guarded_live_inProgress {c : OpClass} {body : State → Out} (ho : s.overlapping = false)
    (hl : s.session.life = .live) (hp : s.sinkCallInProgress = true) :
    guarded c s body = .fault (if c = .init then .initWhileLive else .reentrantCall) := by
  unfold guarded
  rw [if_neg (by simp [ho]), hl]
  cases c with
  | init => rfl
  | _ => exact if_pos hp

theorem encoderOp_inProgress (ho : s.overlapping = false) (hl : s.session.life = .live)
    (hp : s.sinkCallInProgress = true) : encoderOp valid bytes s = .fault .reentrantCall :=
  guarded_live_inProgress ho hl hp

theorem encoderOp_ready (hr : s.Ready) : encoderOp valid bytes s =
    if valid then sendBytes bytes (s.returning none) else .next (s.encoderReturns .invalidArgument) :=
  guarded_ready _ hr (by decide)

theorem encoderOp_invalid (hr : s.Ready) : encoderOp false bytes s = .next (s.encoderReturns .invalidArgument) :=
  encoderOp_ready hr

theorem encoderOp_noSink (hr : s.Ready) (hb : s.session.byteSinkPresent = false) :
    encoderOp true bytes s = .next (s.encoderReturns .ok) := by
  rw [encoderOp_ready hr, if_pos rfl, sendBytes, if_neg (by simp [hb])]
  rfl

theorem encoderOp_sent (hr : s.Ready) (hb : s.session.byteSinkPresent = true) (hq : s.NextSinkQuiet) :
    encoderOp true bytes s = .next (s.sent bytes (drawByteSink s).1) := by
  rw [encoderOp_ready hr, if_pos rfl, sendBytes_quiet (s := s.returning none) hq, State.returning_session, if_pos hb]
  exact congrArg _ (encoderReturns_eq_sent bytes _ hr.2.2)

/-- An encoder operation that answers a next state has returned a result without calling the sink, or has sent its
bytes. -/
theorem encoderOp_returns_or_sent {t : State} (h : encoderOp valid bytes s = .next t) :
    (∃ r, t = s.encoderReturns r ∧ (s.Ready → valid = true → s.session.byteSinkPresent = false)) ∨
    (s.session.byteSinkPresent = true ∧ ∃ a, t = s.sent bytes a) := by
  obtain ⟨-, ⟨hl, rfl⟩ | ⟨hl, hp, ⟨hv, rfl⟩ | ⟨-, hsend⟩⟩⟩ := encoderOp_eq_next h
  · exact .inl ⟨_, rfl, fun hr => nomatch hl.symm.trans hr.1⟩
  · exact .inl ⟨_, rfl, fun _ hv' => by simp [hv] at hv'⟩
  · obtain ⟨hb, rfl⟩ | ⟨hb, -, rfl⟩ := sendBytes_eq_next (s := s.returning none) hl hsend
    · exact .inl ⟨_, rfl, fun _ _ => hb⟩
    · exact .inr ⟨hb, _, encoderReturns_eq_sent bytes _ hp⟩

end

/-- The outcomes of R110, for an operation that is the template with this operand check and these bytes. -/
theorem encoderRuns_of_encoderOp {i : Instr} {valid : Bool} {sentBytes bytes : List Byte} {p : Prop}
    (hrun : ∀ s, exec i s = encoderOp valid sentBytes s) (hvalid : valid = true ↔ p) (hbytes : p → sentBytes = bytes) :
    EncoderRuns i p bytes := by
  intro s ho
  rw [hrun s]
  refine ⟨encoderOp_released ho, encoderOp_absent ho, encoderOp_inProgress ho, fun hr hp => ?_, fun hr hp hb => ?_,
    fun hr hp hb hq a ha => ?_⟩
  · obtain rfl : valid = false := by simpa using mt hvalid.1 hp
    exact encoderOp_invalid hr
  · obtain rfl : valid = true := hvalid.2 hp
    exact encoderOp_noSink hr hb
  · obtain rfl : valid = true := hvalid.2 hp
    rw [ha, ← hbytes hp]
    exact encoderOp_sent hr hb hq

/-! ### Another Session of the same `life` and `byteSinkPresent` -/

/-- A sink that calls back ends the run by its first record alone (R150). -/
theorem sinkCall_stops {record : List Byte} {calls : List (List Byte)} {s : State} (hr : s.Ready)
    (hc : s.sinkConduct.headD (.valid []) = .valid (record :: calls)) : sinkCall s =
      match hostOperation record with
      | .error _ => .refused .illFormedRecord
      | .ok i => .fault (if hostOpClass i = .init then .initWhileLive else .reentrantCall) := by
  obtain ⟨hl, ho, -⟩ := hr
  rw [sinkCall_callsBack hl hc, callBack]
  cases hostOperation record with
  | error => rfl
  | ok i => exact guarded_live_inProgress ho hl rfl

section
variable {s : State} {ses : Session} (hlife : ses.life = s.session.life)
  (hbyte : ses.byteSinkPresent = s.session.byteSinkPresent)
include hlife

theorem State.Ready.withSession (hr : s.Ready) : (s.withSession ses).Ready :=
  ⟨hlife.trans hr.1, hr.2⟩

theorem sinkCall_withSession (hr : s.Ready) :
    sinkCall (s.withSession ses) = mapNext (·.withSession ses) (sinkCall s) := by
  match hc : s.sinkConduct.headD (.valid []) with
  | .gone =>
    rw [sinkCall_gone hc, sinkCall_gone (s := s.withSession ses) hc]
    rfl
  | .valid [] =>
    rw [sinkCall_quiet hc, sinkCall_quiet (s := s.withSession ses) hc]
    rfl
  | .valid (record :: calls) =>
    rw [sinkCall_stops hr hc, sinkCall_stops (hr.withSession hlife) hc]
    cases hostOperation record <;> rfl

include hbyte

theorem sendBytes_withSession (bytes : List Byte) (hr : s.Ready) :
    sendBytes bytes (s.withSession ses) = mapNext (·.withSession ses) (sendBytes bytes s) := by
  rw [sendBytes, sendBytes, State.withSession_session, hbyte, sinkCall_withSession hlife hr]
  split_ifs
  · exact andThen_mapNext fun _ _ => rfl
  · rfl

/-- R115: an encoder operation reads no other field of the Session. -/
theorem encoderOp_withSession (valid : Bool) (bytes : List Byte) :
    encoderOp valid bytes (s.withSession ses) = mapNext (·.withSession ses) (encoderOp valid bytes s) := by
  cases ho : s.overlapping with
  | true =>
    rw [encoderOp_overlapping ho, encoderOp_overlapping (s := s.withSession ses) ho]
    rfl
  | false =>
    cases hl : s.session.life with
    | absent =>
      rw [encoderOp_absent ho hl, encoderOp_absent (s := s.withSession ses) ho (hlife.trans hl)]
      rfl
    | released =>
      rw [encoderOp_released ho hl, encoderOp_released (s := s.withSession ses) ho (hlife.trans hl)]
      rfl
    | live =>
      cases hp : s.sinkCallInProgress with
      | true =>
        rw [encoderOp_inProgress ho hl hp, encoderOp_inProgress (s := s.withSession ses) ho (hlife.trans hl) hp]
        rfl
      | false =>
        have hr : s.Ready := ⟨hl, ho, hp⟩
        rw [encoderOp_ready hr, encoderOp_ready (hr.withSession hlife)]
        cases valid with
        | true => exact sendBytes_withSession (s := s.returning none) hlife hbyte bytes hr
        | false => rfl

end

/-! ### The bytes of a data frame -/

theorem controlByte_standard : ∀ dlc : Byte, dlc.toNat ≤ 8 →
    controlByte .standard dlc = BitVec.ofNat 8 (0xC0 + dlc.toNat) := by decide +kernel

theorem controlByte_extended : ∀ dlc : Byte, dlc.toNat ≤ 8 →
    controlByte .extended dlc = BitVec.ofNat 8 (0xE0 + dlc.toNat) := by decide +kernel

theorem encFrameValid_iff (dlc : Byte) : encFrameValid dlc = true ↔ dlc.toNat ≤ 8 :=
  decide_eq_true_iff

theorem encFilterValid_iff (ids : List Word32) : encFilterValid ids = true ↔ 1 ≤ ids.length ∧ ids.length ≤ 255 :=
  decide_eq_true_iff

theorem idField_length (kind : IdKind) (id : Word32) : (idField kind id).length = idLength kind := by
  cases kind <;> rfl

/-- An identifier in range is read back from the identifier bytes sent (R82, R149). -/
theorem value_record_idField {kind : IdKind} {id : Word32} (h : id.toNat ≤ idMax kind) :
    (IdBytes.zero.record (idField kind id)).value = id := by
  cases kind with
  | standard =>
    have hlow : (id.setWidth 16).toNat = id.toNat := by
      have h : id.toNat ≤ 0x7FF := h
      rw [BitVec.toNat_setWidth]
      omega
    rw [idField, value_record_le16, hlow, BitVec.ofNat_toNat, BitVec.setWidth_eq]
  | extended => exact value_record_le32 id

/-- What ENC_FRAME sends for an identifier in range, received while no message is in progress, is delivered (P-RT). -/
theorem feedBytes_frameMessage {kind : IdKind} {id : Word32} {dlc : Byte} {data : List Byte} {u : State}
    (hdlc : dlc.toNat ≤ 8) (hdata : data.length = 8) (hid : id.toNat ≤ idMax kind) (hr : u.Ready)
    (hidle : u.session.Idle) (hsink : u.session.frameSinkPresent = true) (hq : u.NextSinkQuiet) :
    ∃ v, feedBytes (frameMessage kind id dlc data) u = .next v ∧
      v.trace = u.trace ++ [.frameEvent ⟨kind, id, dlc.toNat, data.take dlc.toNat⟩] := by
  have hlen : (data.take dlc.toNat).length = dlc.toNat := by simp; omega
  obtain ⟨v, hv, -, htrace⟩ := feedBytes_dataFrame (k := kind) false 0x55 (hlen.trans_le hdlc)
    (idField_length kind id) (value_record_idField hid) hr hidle hq
  rw [hlen] at hv htrace
  rw [if_pos ⟨⟨rfl, hid⟩, hsink⟩] at htrace
  refine ⟨v, ?_, htrace⟩
  rw [frameMessage, controlByte_eq_wireControlByte kind dlc hdlc]
  exact hv

end Machine

/-- Settles O47: the trace shows the bytes sent, and those bytes are a data frame that is received whole. -/
theorem encodedFrameDecodesToItself : Obligations.EncodedFrameDecodesToItself := by
  intro kind id dlc data s t u hdlc hdata hid hs hbyte h hu hidle hsink hq
  obtain ⟨v, hv, htrace⟩ := Machine.feedBytes_frameMessage hdlc hdata hid hu hidle hsink hq
  obtain ⟨r, -, hnone⟩ | ⟨-, a, rfl⟩ := Machine.encoderOp_returns_or_sent h
  · simp [hnone hs ((Machine.encFrameValid_iff dlc).2 hdlc)] at hbyte
  · exact ⟨_, a, v, rfl, hv, htrace⟩

/-- Settles O7: the control byte is a sum, the identifier bytes are its low bytes. -/
theorem encFrameSendsDataFrame : Obligations.EncFrameSendsDataFrame := by
  intro kind id dlc data
  refine Machine.encoderRuns_of_encoderOp (fun _ => rfl) (Machine.encFrameValid_iff dlc) fun hdlc => ?_
  cases kind with
  | standard => rw [Machine.frameMessage, Machine.controlByte_standard dlc hdlc, Machine.idField_standard]
  | extended => rw [Machine.frameMessage, Machine.controlByte_extended dlc hdlc, Machine.idField, Machine.le32_eq_leBytes]

/-- Settles O8: the checksum's range is the body from its discriminator on. -/
theorem encConfigSendsConfiguration : Obligations.EncConfigSendsConfiguration := by
  rintro baud kind filterId maskId mode body rfl
  refine Machine.encoderRuns_of_encoderOp (fun _ => rfl) (iff_of_true rfl trivial) fun _ => ?_
  rw [Machine.configMessage_eq_encode, Machine.byteSum_eq_sumMod256, ← Machine.le32_eq_leBytes,
    ← Machine.le32_eq_leBytes]
  rfl

/-- Settles O9: the checksum's range is the body from its discriminator on. -/
theorem encFilterSendsFilterList : Obligations.EncFilterSendsFilterList := by
  rintro ids body rfl
  refine Machine.encoderRuns_of_encoderOp (fun _ => rfl) (Machine.encFilterValid_iff ids) fun _ => ?_
  rw [Machine.filterMessage_eq_encode, Machine.byteSum_eq_sumMod256, ← funext Machine.le32_eq_leBytes]
  rfl

/-- Settles O11: the template of R110 reads two fields of the Session and appends its result, after the bytes sent. -/
theorem encodersArePure : Obligations.EncodersArePure := by
  intro i s hi
  obtain ⟨valid, bytes, hrun⟩ := Machine.exec_of_isEncoder hi
  simp only [hrun]
  refine ⟨fun ses hlife hbyte => Machine.encoderOp_withSession hlife hbyte valid bytes, fun t h => ?_⟩
  obtain ⟨r, rfl, -⟩ | ⟨hbyte, a, rfl⟩ := Machine.encoderOp_returns_or_sent h
  · exact ⟨rfl, rfl, rfl, rfl, r, rfl, .inl rfl⟩
  · exact ⟨rfl, rfl, rfl, rfl, resultOf a, rfl, .inr ⟨bytes, a, rfl, hbyte, rfl⟩⟩

/-- Settles O10: ENC_CANCEL is the template with no operand check. -/
theorem encCancelSendsFiveBytes : Obligations.EncCancelSendsFiveBytes :=
  Machine.encoderRuns_of_encoderOp (fun _ => rfl) (iff_of_true rfl trivial) fun _ => rfl

end Sys2Proof
end

section
/-! FEED, state by state (41_receive.md R140 to R154): what one byte does in each `detectState`, which byte completes an
event, and how a message comes to its end; and how FEED, a wire row and a sink call stop (60_exceptions.md R216). -/

namespace Sys2Proof

open Spec

namespace Machine

/-! ### How a FEED stops -/

/-- An instruction that puts bytes through the receive machine stops where its first FEED does (R92). -/
theorem exec_eq_andThen_feedByte {i : Instr} (hi : receives i = true) :
    ∃ b rest, ∀ s, exec i s = andThen (feedByte b s) (feedBytes rest) := by
  obtain ⟨b, rest, hbytes⟩ := List.exists_cons_of_ne_nil (serialBytes_ne_nil hi)
  exact ⟨b, rest, fun s => by rw [exec_of_receives hi, hbytes, feedBytes_cons]⟩

section
variable {s : State} {b : Byte}

theorem feedByte_overlapping (ho : s.overlapping = true) : feedByte b s = .refused .concurrentCall :=
  if_pos ho

theorem feedByte_released (ho : s.overlapping = false) (hl : s.session.life = .released) :
    feedByte b s = .fault .useAfterDeinit := by
  unfold feedByte guarded
  rw [if_neg (by simp [ho]), hl]

theorem feedByte_absent (ho : s.overlapping = false) (hl : s.session.life = .absent) :
    feedByte b s = .fault .feedNoSession := by
  unfold feedByte guarded
  rw [if_neg (by simp [ho]), hl]

theorem feedByte_inProgress (ho : s.overlapping = false) (hl : s.session.life = .live)
    (hp : s.sinkCallInProgress = true) : feedByte b s = .fault .reentrantCall :=
  guarded_live_inProgress ho hl hp

end

/-! ### What FEED answers for the event a byte completes -/

section
variable {s : State} {b : Byte} {ses' : Session} {ev : Option Event} (hr : s.Ready)
  (hrec : receive b s.session = .ok (ses', ev))
include hr hrec

/-- No event, or one whose sink is absent (R150). -/
theorem feedByte_of_not_delivered (hd : delivered ev s.session = []) :
    feedByte b s = .next { s with returned := none, session := ses' } := by
  cases ev with
  | none => exact feedByte_none hr hrec
  | some e => exact (feedByte_some hr hrec).1 (by simpa [delivered] using hd)

/-- An event whose sink is attached and calls nothing back (R150). -/
theorem feedByte_of_delivered {entry : TraceEntry} (hd : delivered ev s.session = [entry]) (hq : s.NextSinkQuiet) :
    feedByte b s = .next { s with
      returned := none, session := ses', trace := s.trace ++ [entry], sinkConduct := s.sinkConduct.tail } := by
  cases ev with
  | none => cases hd
  | some e =>
    cases hp : e.sinkPresent s.session with
    | false => simp [delivered, hp] at hd
    | true =>
      obtain rfl : e.entry = entry := by simpa [delivered, hp] using hd
      exact (feedByte_some hr hrec).2 hp hq

end

/-! ### The model's terms in the statements' arithmetic -/

theorem dataOffset_eq_dataStart (kind : IdKind) : dataOffset kind = dataStart kind := by
  cases kind <;> rfl

theorem dataEnd_eq (ses : Session) : ses.dataEnd = dataStart ses.pendingType + ses.pendingDlc.toNat :=
  congrArg (· + ses.pendingDlc.toNat) (dataOffset_eq_dataStart ses.pendingType)

theorem toNat_idBytes_value (p : IdBytes) : p.value.toNat = idNumber p :=
  word32_toNat p.id0 p.id1 p.id2 p.id3

theorem ofNat_idNumber (p : IdBytes) : BitVec.ofNat 32 (idNumber p) = p.value := by
  rw [← toNat_idBytes_value, BitVec.ofNat_toNat, BitVec.setWidth_eq]

theorem dlcField_eq_ofNat (b : Byte) : dlcField b = BitVec.ofNat 4 (b.toNat % 16) := by
  obtain ⟨-, hdlc, -⟩ := controlByte_fields b
  exact BitVec.eq_of_toNat_eq (by rw [hdlc, BitVec.toNat_ofNat, Nat.mod_mod])

theorem statusChecksumOk_iff (r : RxBuffer) (b : Byte) :
    statusChecksumOk r b = true ↔ sumMod256 ((List.range 17).map fun i => r.read (2 + i)) = b := by
  rw [statusChecksumOk, beq_iff_eq, byteSum_eq_sumMod256, RxBuffer.slice_eq]

theorem ended_eq_resetMessage (ses : Session) (buf : RxBuffer) :
    ended ses buf = Session.resetMessage { ses with rxBuffer := buf } := rfl

theorem ended_idle (ses : Session) (buf : RxBuffer) : (ended ses buf).Idle :=
  Session.resetMessage_idle { ses with rxBuffer := buf }

/-! ### What a byte does, in the statements' terms -/

/-- R143, by the value of the byte. -/
theorem receive_frameInfo_cases {ses : Session} (b : Byte) (hd : ses.detectState = .frameInfo) :
    receive b ses = .ok
      (if b = 0x55 then { ses with rxBuffer := stored ses 1 b, cursor := 2, detectState := .controllerStatus }
       else if 192 ≤ b.toNat then
         if 8 < b.toNat % 16 then ended ses (stored ses 1 b)
         else
           { ses with
             rxBuffer := stored ses 1 b
             cursor := 2
             pendingDlc := BitVec.ofNat 4 (b.toNat % 16)
             pendingType := if b.toNat / 32 % 2 = 1 then .extended else .standard
             detectState := if b.toNat / 32 % 2 = 1 then .idExt else .idStd }
       else { ses with rxBuffer := stored ses 1 b, cursor := 1 }, none) := by
  obtain ⟨hc, hdlc, hk⟩ := controlByte_fields b
  rw [receive_frameInfo b (stored ses 1 b) hd rfl]
  simp only [hc, hdlc, hk, ended_eq_resetMessage]
  rw [dlcField_eq_ofNat]
  by_cases hx : b.toNat / 32 % 2 = 1
  · simp only [if_pos hx]
  · simp only [if_neg hx]

/-- R144 and R145 at a cursor inside the buffer. -/
theorem receive_id_at {ses : Session} (b : Byte) (full n : Nat)
    (hd : ses.detectState = .idStd ∧ full = 4 ∨ ses.detectState = .idExt ∧ full = 6) (hc : ses.cursor = n)
    (hn : n < 20) :
    receive b ses = .ok
      ({ ses with
          rxBuffer := stored ses n b
          pendingId := ses.pendingId.setAtCursor n b
          cursor := n + 1
          detectState :=
            if n + 1 = full then (if ses.pendingDlc.toNat = 0 then .eof else .data) else ses.detectState }, none) := by
  subst hc
  rw [receive_id b (stored ses ses.cursor b) full hd hn rfl]
  simp only [← BitVec.toNat_inj, BitVec.ofNat_eq_ofNat, BitVec.toNat_ofNat, Nat.zero_mod]

/-- R147 and R149 at the cursor of R36. -/
theorem receive_eof_at {ses : Session} (b : Byte) (hd : ses.detectState = .eof) (hc : ses.cursor < 20)
    (he : ses.cursor = dataStart ses.pendingType + ses.pendingDlc.toNat) :
    receive b ses = .ok (ended ses (stored ses ses.cursor b),
      if b = 0x55 ∧ idNumber ses.pendingId ≤ idMax ses.pendingType then
        some (.frame ⟨ses.pendingType, BitVec.ofNat 32 (idNumber ses.pendingId), ses.pendingDlc.toNat,
          (List.range ses.pendingDlc.toNat).map fun i => ses.rxBuffer.read (dataStart ses.pendingType + i)⟩)
      else none) := by
  rw [receive_eof b (stored ses ses.cursor b) _ hd hc (he.trans (dataEnd_eq ses).symm) rfl rfl]
  simp only [idInRange_iff, toNat_idBytes_value, RxBuffer.slice_eq, dataOffset_eq_dataStart, ofNat_idNumber,
    ended_eq_resetMessage]

/-- R148 at the checksum's index. -/
theorem receive_statusLast {ses : Session} (b : Byte) (hd : ses.detectState = .controllerStatus)
    (hc : ses.cursor = 19) : receive b ses = .ok (ended ses (stored ses ses.cursor b),
      if sumMod256 ((List.range 17).map fun i => ses.rxBuffer.read (2 + i)) = b then
        some (.status ses.pendingTxErr ses.pendingRxErr) else none) := by
  rw [receive_controllerStatus b (stored ses ses.cursor b) hd (by omega) rfl, if_pos hc]
  simp only [statusChecksumOk_iff, ended_eq_resetMessage]

/-- R148 at the discriminator's index. -/
theorem receive_otherDisc {ses : Session} {b : Byte} (hd : ses.detectState = .controllerStatus) (hc : ses.cursor = 2)
    (hb : b ≠ 0x04) : receive b ses = .ok (ended ses (stored ses ses.cursor b), none) := by
  rw [receive_controllerStatus b (stored ses ses.cursor b) hd (by omega) rfl, if_neg (by omega), if_pos ⟨hc, hb⟩,
    ended_eq_resetMessage]

/-! ### A byte goes on with the message or ends it -/

/-- Past the two header bytes of a message (R36). -/
abbrev Session.InBody (ses : Session) : Prop := ses.detectState ≠ .waitStart ∧ ses.detectState ≠ .frameInfo

/-- How many bytes the message in progress has: the 20 of a status report, or a data frame's end and its terminator. -/
def Session.messageLength (ses : Session) : Nat :=
  if ses.detectState = .controllerStatus then 20 else ses.dataEnd + 1

/-- The same message, one byte on. -/
structure Session.Advanced (ses ses' : Session) : Prop where
  inBody : ses'.InBody
  cursor : ses'.cursor = ses.cursor + 1
  messageLength : ses'.messageLength = ses.messageLength

/-- A data frame goes on in its own state, in `Data` or in `Eof`. -/
theorem Session.Advanced.of_dataFrame {ses ses' : Session} (hb : ses.InBody)
    (hd : ses.detectState ≠ .controllerStatus)
    (hnext : ses'.detectState = .eof ∨ ses'.detectState = .data ∨ ses'.detectState = ses.detectState)
    (hcursor : ses'.cursor = ses.cursor + 1) (hend : ses'.dataEnd = ses.dataEnd) : ses.Advanced ses' := by
  have hnext : ses'.InBody ∧ ses'.detectState ≠ .controllerStatus := by
    obtain h | h | h := hnext
    · simp [Session.InBody, h]
    · simp [Session.InBody, h]
    · simp [Session.InBody, h, hb.1, hb.2, hd]
  exact ⟨hnext.1, hcursor, by simp [Session.messageLength, hd, hnext.2, hend]⟩

section
variable {b : Byte} {ses ses' : Session} {ev : Option Event} (h : receive b ses = .ok (ses', ev))
include h

/-- The header bytes complete no event (R142, R143). -/
theorem receive_header_silent (hd : ¬ ses.InBody) : ev = none := by
  cases hds : ses.detectState with
  | waitStart =>
    rw [receive_waitStart b hds] at h
    exact (Prod.mk.inj (Except.ok.inj h)).2.symm
  | frameInfo =>
    rw [receive_frameInfo b _ hds rfl] at h
    exact (Prod.mk.inj (Except.ok.inj h)).2.symm
  | _ => exact absurd ⟨by simp [hds], by simp [hds]⟩ hd

/-- An identifier byte goes on with the frame (R144, R145). -/
theorem receive_id_advances (hb : ses.InBody) {full : Nat}
    (hd : ses.detectState = .idStd ∧ full = 4 ∨ ses.detectState = .idExt ∧ full = 6) (hc : ses.cursor < 20) :
    ev = none ∧ ses.Advanced ses' := by
  rw [receive_id b _ full hd hc rfl] at h
  obtain ⟨rfl, rfl⟩ := Prod.mk.inj (Except.ok.inj h)
  refine ⟨rfl, .of_dataFrame hb ?_ ?_ rfl rfl⟩
  · obtain ⟨hd, -⟩ | ⟨hd, -⟩ := hd <;> simp [hd]
  · dsimp only
    split_ifs <;> simp

/-- A data byte goes on with the frame (R146). -/
theorem receive_data_advances (hb : ses.InBody) (hd : ses.detectState = .data) (hc : ses.cursor < 20) :
    ev = none ∧ ses.Advanced ses' := by
  rw [receive_data b _ hd hc rfl] at h
  obtain ⟨rfl, rfl⟩ := Prod.mk.inj (Except.ok.inj h)
  refine ⟨rfl, .of_dataFrame hb (by simp [hd]) ?_ rfl rfl⟩
  dsimp only
  split_ifs <;> simp

/-- Past the header a byte goes on with the message, with no event, or ends it by ResetMessage (R141), with an event on
the lines of R153 only. -/
theorem receive_body_cases (hb : ses.InBody) :
    (ev = none ∧ ses.Advanced ses') ∨
    (ses' = ended ses (stored ses ses.cursor b) ∧
      ∀ e, ev = some e → eventAllowed ses b ∧ e.sinkPresent ses = eventSink ses) := by
  have hc := receive_cursor_lt hb.1 hb.2 h
  cases hd : ses.detectState with
  | waitStart => exact absurd hd hb.1
  | frameInfo => exact absurd hd hb.2
  | idStd => exact .inl (receive_id_advances h hb (.inl ⟨hd, rfl⟩) hc)
  | idExt => exact .inl (receive_id_advances h hb (.inr ⟨hd, rfl⟩) hc)
  | data => exact .inl (receive_data_advances h hb hd hc)
  | eof =>
    obtain ⟨hses, hev⟩ := receive_eof_cases hd h
    refine .inr ⟨hses, fun e he => ?_⟩
    subst he
    obtain hnone | ⟨f, hf, h55, hkind, hid, -, -, hrange⟩ := hev
    · cases hnone
    · cases hf
      rw [idInRange_iff, hkind, hid, toNat_idBytes_value] at hrange
      exact ⟨.inl ⟨hd, h55, hrange⟩, (if_pos hd).symm⟩
  | controllerStatus =>
    by_cases h19 : ses.cursor = 19
    · rw [receive_statusLast b hd h19] at h
      obtain ⟨rfl, hev⟩ := Prod.mk.inj (Except.ok.inj h)
      refine .inr ⟨rfl, fun e he => ?_⟩
      obtain ⟨hsum, he⟩ := Option.ite_none_right_eq_some.1 (hev.trans he)
      cases he
      exact ⟨.inr ⟨hd, h19, hsum⟩, (if_neg (by simp [hd])).symm⟩
    by_cases hdisc : ses.cursor = 2 ∧ b ≠ 0x04
    · rw [receive_otherDisc hd hdisc.1 hdisc.2] at h
      obtain ⟨rfl, rfl⟩ := Prod.mk.inj (Except.ok.inj h)
      exact .inr ⟨rfl, nofun⟩
    · rw [receive_statusByte ses b _ hd rfl (by omega) fun h2 => by simpa [h2] using hdisc] at h
      obtain ⟨rfl, rfl⟩ := Prod.mk.inj (Except.ok.inj h)
      exact .inl ⟨rfl, hb, rfl, by simp [Session.messageLength, hd]⟩

/-- R141: whichever byte takes the Session back to `WaitStart`, it ends the message by ResetMessage. -/
theorem receive_ended (hd : ses.detectState ≠ .waitStart) (hd' : ses'.detectState = .waitStart) :
    ses' = ended ses (stored ses (if ses.detectState = .frameInfo then 1 else ses.cursor) b) := by
  by_cases hinfo : ses.detectState = .frameInfo
  · rw [receive_frameInfo_cases b hinfo] at h
    obtain ⟨rfl, -⟩ := Prod.mk.inj (Except.ok.inj h)
    rw [if_pos hinfo]
    split_ifs at hd' with h55 hc hdlc
    · rw [if_neg h55, if_pos hc, if_pos hdlc]
    · exact absurd hd' hd
  · rw [if_neg hinfo]
    obtain ⟨-, hadv⟩ | ⟨hses, -⟩ := receive_body_cases h ⟨hd, hinfo⟩
    · exact absurd hd' hadv.inBody.1
    · exact hses

/-- R152: a byte that completes an event is on a line of R153 that has one, and ends the message. -/
theorem receive_event {e : Event} (he : ev = some e) :
    eventAllowed ses b ∧ e.sinkPresent ses = eventSink ses ∧ ses'.Idle := by
  subst he
  by_cases hb : ses.InBody
  · obtain ⟨hnone, -⟩ | ⟨rfl, hev⟩ := receive_body_cases h hb
    · cases hnone
    · obtain ⟨hallowed, hsink⟩ := hev e rfl
      exact ⟨hallowed, hsink, ended_idle _ _⟩
  · exact nomatch receive_header_silent h hb

/-- R153's column of states. -/
theorem receive_nextDetectState (ht : ses.Table) : ses'.detectState = nextDetectState ses b := by
  have hlt := ht.cursor_lt
  obtain ⟨-, -, hidStd, hidExt, hdata, -, -⟩ := ht
  cases hd : ses.detectState with
  | waitStart =>
    rw [receive_waitStart b hd] at h
    obtain ⟨rfl, -⟩ := Prod.mk.inj (Except.ok.inj h)
    simp [nextDetectState, hd, apply_ite Session.detectState]
  | frameInfo =>
    rw [receive_frameInfo_cases b hd] at h
    obtain ⟨rfl, -⟩ := Prod.mk.inj (Except.ok.inj h)
    simp [nextDetectState, hd, apply_ite Session.detectState, ended, Nat.succ_le_iff]
  | idStd =>
    obtain ⟨hc, -⟩ := hidStd hd
    rw [receive_id b _ 4 (.inl ⟨hd, rfl⟩) hlt rfl] at h
    obtain ⟨rfl, -⟩ := Prod.mk.inj (Except.ok.inj h)
    obtain hc | hc := hc <;> simp [nextDetectState, hd, hc]
  | idExt =>
    obtain ⟨-, hc, -⟩ := hidExt hd
    rw [receive_id b _ 6 (.inr ⟨hd, rfl⟩) hlt rfl] at h
    obtain ⟨rfl, -⟩ := Prod.mk.inj (Except.ok.inj h)
    by_cases h6 : ses.cursor + 1 = 6
    · simp [nextDetectState, hd, h6]
    · simp [nextDetectState, hd, h6, show ses.cursor + 1 < 6 by omega]
  | data =>
    obtain ⟨-, hc, -⟩ := hdata hd
    rw [dataEnd_eq] at hc
    rw [receive_data b _ hd hlt rfl] at h
    obtain ⟨rfl, -⟩ := Prod.mk.inj (Except.ok.inj h)
    by_cases hend : ses.cursor + 1 = dataStart ses.pendingType + ses.pendingDlc.toNat
    · simp [nextDetectState, hd, dataEnd_eq, hend]
    · simp [nextDetectState, hd, dataEnd_eq, hend, show ses.cursor + 1 < _ from lt_of_le_of_ne hc hend]
  | eof =>
    obtain ⟨rfl, -⟩ := receive_eof_cases hd h
    simp [nextDetectState, hd]
  | controllerStatus =>
    by_cases h19 : ses.cursor = 19
    · rw [receive_statusLast b hd h19] at h
      obtain ⟨rfl, -⟩ := Prod.mk.inj (Except.ok.inj h)
      simp [nextDetectState, hd, h19, ended]
    by_cases hdisc : ses.cursor = 2 ∧ b ≠ 0x04
    · rw [receive_otherDisc hd hdisc.1 hdisc.2] at h
      obtain ⟨rfl, -⟩ := Prod.mk.inj (Except.ok.inj h)
      simpa [nextDetectState, hd, hdisc.1, ended] using hdisc.2
    · rw [receive_statusByte ses b _ hd rfl (by omega) fun h2 => by simpa [h2] using hdisc] at h
      obtain ⟨rfl, -⟩ := Prod.mk.inj (Except.ok.inj h)
      simpa [nextDetectState, hd, h19] using hdisc

end

/-- The lines of R153 that have an event complete one, where the table of R36 holds. -/
theorem receive_completes {b : Byte} {ses : Session} (ht : ses.Table) (hev : eventAllowed ses b) :
    ∃ ses' e, receive b ses = .ok (ses', some e) := by
  have hlt := ht.cursor_lt
  obtain ⟨hd, h55, hid⟩ | ⟨hd, h19, hsum⟩ := hev
  · obtain ⟨-, -, -, -, -, heof, -⟩ := ht
    obtain ⟨hc, -⟩ := heof hd
    rw [receive_eof_at b hd hlt (hc.trans (dataEnd_eq ses)), if_pos ⟨h55, hid⟩]
    exact ⟨_, _, rfl⟩
  · rw [receive_statusLast b hd h19, if_pos hsum]
    exact ⟨_, _, rfl⟩

/-- R153's column of events: where the table of R36 holds, the trace grows on its lines only, if the sink is there. -/
theorem delivered_ne_nil_iff {b : Byte} {ses ses' : Session} {ev : Option Event} (ht : ses.Table)
    (h : receive b ses = .ok (ses', ev)) :
    delivered ev ses ≠ [] ↔ eventAllowed ses b ∧ eventSink ses = true := by
  cases ev with
  | none =>
    refine iff_of_false (fun hne => hne rfl) fun ⟨hev, _⟩ => ?_
    obtain ⟨ses'', e, h'⟩ := receive_completes ht hev
    cases h.symm.trans h'
  | some e =>
    obtain ⟨hallowed, hsink, -⟩ := receive_event h rfl
    simp [delivered, hsink, hallowed]

/-! ### Reception to its end -/

theorem State.Inv.table {s : State} (hi : s.Inv) (hl : s.session.life = .live) : s.session.Table :=
  (hi.2.2 hl).1

/-- In the invariant no byte is refused its place in the buffer. -/
theorem State.Inv.exists_receive {s : State} (hi : s.Inv) (hl : s.session.life = .live) (b : Byte) :
    ∃ ses' ev, receive b s.session = .ok (ses', ev) := by
  obtain ⟨hm, -, hlive⟩ := hi
  obtain ⟨ht, hw, hz⟩ := hlive hl
  obtain ⟨ses', ev, hrec, -⟩ := receive_table b hm ht hw hz
  exact ⟨ses', ev, hrec⟩

/-- In the invariant, with sinks that call nothing back, every byte is received. -/
theorem feedByte_completes (b : Byte) {s : State} (hi : s.Inv) (hs : s.Unhindered) :
    ∃ t ev, receive b s.session = .ok (t.session, ev) ∧ feedByte b s = .next t ∧ t.Inv ∧ t.Unhindered := by
  obtain ⟨ses', ev, hrec⟩ := hi.exists_receive hs.1.1 b
  obtain ⟨t, hfeed, rfl, -, hu⟩ := feedByte_unhindered hs hrec
  exact ⟨t, ev, hrec, hfeed, feedByte_keeps_inv hi hfeed, hu⟩

theorem feedBytes_completes (bytes : List Byte) {s : State} (hi : s.Inv) (hs : s.Unhindered) :
    ∃ t, feedBytes bytes s = .next t ∧ t.Inv ∧ t.Unhindered := by
  induction bytes generalizing s with
  | nil => exact ⟨s, rfl, hi, hs⟩
  | cons b bytes ih =>
    obtain ⟨u, -, -, hfeed, hiu, hu⟩ := feedByte_completes b hi hs
    rw [feedBytes_cons, hfeed, andThen_next]
    exact ih hiu hu

/-- In the body of a message bytes are still to come, at most 18 of a status report and 13 of a data frame (R36). -/
theorem Session.Table.messageLength_bounds {ses : Session} (ht : ses.Table) (hb : ses.InBody) :
    ses.cursor < ses.messageLength ∧
      ses.messageLength ≤ ses.cursor + if ses.detectState = .controllerStatus then 18 else 13 := by
  obtain ⟨-, -, hidStd, hidExt, hdata, heof, hstatus⟩ := ht
  have hend : ses.dataEnd = dataOffset ses.pendingType + ses.pendingDlc.toNat := rfl
  cases hd : ses.detectState with
  | waitStart => exact absurd hd hb.1
  | frameInfo => exact absurd hd hb.2
  | idStd =>
    obtain ⟨hc, hk, h8⟩ := hidStd hd
    simp only [messageLength, hd, hend, hk, dataOffset, reduceCtorEq, if_false]
    omega
  | idExt =>
    obtain ⟨hlo, hhi, hk, h8⟩ := hidExt hd
    simp only [messageLength, hd, hend, hk, dataOffset, reduceCtorEq, if_false]
    omega
  | data =>
    obtain ⟨hlo, hhi, h8⟩ := hdata hd
    simp only [messageLength, hd, reduceCtorEq, if_false]
    omega
  | eof =>
    obtain ⟨hc, h14, h8⟩ := heof hd
    simp only [messageLength, hd, reduceCtorEq, if_false]
    omega
  | controllerStatus =>
    obtain ⟨hlo, hhi, -⟩ := hstatus hd
    simp only [messageLength, hd, if_true]
    omega

/-- R154: as many bytes as the message still has take the Session back to `WaitStart`, if not fewer. -/
theorem feedBytes_recovers {bytes : List Byte} {s : State} (hi : s.Inv) (hs : s.Unhindered) (hb : s.session.InBody)
    (hlen : s.session.messageLength ≤ s.session.cursor + bytes.length) :
    ∃ k t, k ≤ bytes.length ∧ feedBytes (bytes.take k) s = .next t ∧ t.session.detectState = .waitStart := by
  induction bytes generalizing s with
  | nil =>
    obtain ⟨hpos, -⟩ := (hi.table hs.1.1).messageLength_bounds hb
    exact absurd hlen (Nat.not_le.2 hpos)
  | cons b bytes ih =>
    obtain ⟨u, ev, hrec, hfeed, hiu, hu⟩ := feedByte_completes b hi hs
    obtain ⟨-, hbody, hcursor, hlength⟩ | ⟨hended, -⟩ := receive_body_cases hrec hb
    · obtain ⟨k, t, hk, ht, hwait⟩ := ih hiu hu hbody (by rw [hlength, hcursor]; simp at hlen; omega)
      refine ⟨k + 1, t, Nat.succ_le_succ hk, ?_, hwait⟩
      rw [List.take_succ_cons, feedBytes_cons, hfeed, andThen_next, ht]
    · refine ⟨1, u, by simp, ?_, by rw [hended]; rfl⟩
      rw [List.take_succ_cons, List.take_zero, feedBytes_cons, hfeed]
      rfl

/-! ### A changed payload byte -/

/-- The checksum tells two payloads apart that differ in one byte (R80). -/
theorem sumMod256_replace_inj {pre post : List Byte} {x y : Byte}
    (h : sumMod256 (pre ++ x :: post) = sumMod256 (pre ++ y :: post)) : x = y := by
  have hx := x.isLt
  have hy := y.isLt
  have h := congrArg BitVec.toNat h
  simp only [sumMod256, BitVec.toNat_ofNat, List.map_append, List.map_cons, List.sum_append, List.sum_cons] at h
  exact BitVec.eq_of_toNat_eq (by omega)

theorem sumMod256_set_ne {payload : List Byte} {k : Nat} {x : Byte} (hk : k < payload.length)
    (hx : payload[k]? ≠ some x) : sumMod256 (0x04 :: payload) ≠ sumMod256 (0x04 :: payload.set k x) := by
  intro h
  have hsplit : 0x04 :: payload = (0x04 :: payload.take k) ++ payload[k] :: payload.drop (k + 1) := by simp
  rw [hsplit, List.set_eq_take_append_cons_drop, if_pos hk, ← List.cons_append] at h
  exact hx (sumMod256_replace_inj h ▸ List.getElem?_eq_getElem hk)

/-! ### Operations that call a sink -/

/-- An encoder operation with valid operands is the template of R110 past its operand check. -/
theorem exec_of_operandsValid {i : Instr} (hi : operandsValid i) :
    ∃ bytes, ∀ s, exec i s = encoderOp true bytes s := by
  cases i with
  | encFrame kind id dlc data => exact ⟨_, fun s => by rw [← (encFrameValid_iff dlc).2 hi]; rfl⟩
  | encFilter ids => exact ⟨_, fun s => by rw [← (encFilterValid_iff ids).2 hi]; rfl⟩
  | encConfig | encCancel => exact ⟨_, fun _ => rfl⟩
  | _ => cases hi

/-- An operation that calls a sink does nothing else before that call (R110, R150). -/
theorem exec_callsSink {i : Instr} {s : State} (hr : s.Ready) (hc : callsSink i s.session) :
    ∃ k, exec i s = andThen (sinkCall (s.returning none)) k := by
  obtain ⟨-, hvalid, hbyte⟩ | ⟨b, rfl, hev, hsink, ht⟩ := hc
  · obtain ⟨bytes, hrun⟩ := exec_of_operandsValid hvalid
    rw [hrun, encoderOp_ready hr, if_pos rfl, sendBytes, State.returning_session, if_pos hbyte]
    exact ⟨_, rfl⟩
  · obtain ⟨ses', e, hrec⟩ := receive_completes ht hev
    obtain ⟨-, hpresent, -⟩ := receive_event hrec rfl
    have hfeed : exec (.feed b) s = feedBody b (s.returning none) := feedByte_ready hr
    simp only [hfeed, feedBody, State.returning_session, hrec, deliver, emit, hpresent.trans hsink, if_true,
      andThen_assoc]
    exact ⟨_, rfl⟩

/-- Of the host's operations INIT alone has the record 0x06 (R89). -/
theorem hostOpClass_eq_init_iff {record : List Byte} {i : Instr} (h : hostOperation record = .ok i) :
    hostOpClass i = .init ↔ record.headD 0 = 0x06 := by
  have hill := ne_illFormedRecord_of_wellFormed ((recordWellFormed_iff record).2 ⟨i, h⟩)
  rw [decodeHost_of_ok h] at hill
  obtain ⟨rfl, -, hp⟩ := isRecordOf_of_hostOperation h
  cases i with
  | illFormedRecord r => exact absurd rfl (hill r)
  | feed | encFrame | encConfig | encFilter | encCancel | init | deinit => simp [hostOpClass, encode]
  | _ => cases hp

end Machine

/-- Settles O5: an instruction that receives begins with a FEED, and that one stops. -/
theorem wireMessagesStopAsFeedDoes : Obligations.WireMessagesStopAsFeedDoes := by
  intro i s hp
  obtain ⟨b, rest, hrun⟩ := Machine.exec_eq_andThen_feedByte (receives_of_wire hp)
  rw [hrun s]
  refine ⟨fun ho => ?_, fun ho => ⟨fun hl => ?_, fun hl => ?_, fun hl hc => ?_⟩⟩
  · rw [Machine.feedByte_overlapping ho, Machine.andThen_refused]
  · rw [Machine.feedByte_released ho hl, Machine.andThen_fault]
  · rw [Machine.feedByte_absent ho hl, Machine.andThen_fault]
  · rw [Machine.feedByte_inProgress ho hl hc, Machine.andThen_fault]

/-- Settles O6: the first record a sink calls back ends its call, and with it the operation. -/
theorem callingBackFromASinkStops : Obligations.CallingBackFromASinkStops := by
  intro s record calls rest hr hconduct i hcalls
  obtain ⟨k, hrun⟩ := Machine.exec_callsSink hr hcalls
  rw [hrun, Machine.sinkCall_stops (s := s.returning none) (record := record) (calls := calls) hr (by simp [hconduct])]
  cases hop : hostOperation record with
  | error e =>
    have hill : ¬ recordWellFormed record = true := by simp [recordWellFormed_iff, hop]
    exact ⟨fun _ => rfl, fun hwf => absurd hwf hill⟩
  | ok j =>
    have hwf : recordWellFormed record = true := (recordWellFormed_iff record).2 ⟨j, hop⟩
    refine ⟨fun hill => by simp [hwf] at hill, fun _ => ?_⟩
    simp only [Machine.hostOpClass_eq_init_iff hop, Machine.andThen_fault]

/-- Settles O23: a byte that leaves the Session in `WaitStart` has ended the message. -/
theorem endedMessageClearsEveryPendingField : Obligations.EndedMessageClearsEveryPendingField := by
  intro b s t hd h hd'
  obtain ⟨ev, hrec⟩ := Machine.feedByte_session h
  exact Machine.receive_ended hrec hd hd'

/-- Settles O24: FEED delivers the event a byte completes, and such a byte ends the message. -/
theorem feedEmitsAtMostOneEvent : Obligations.FeedEmitsAtMostOneEvent := by
  intro b s t h
  obtain ⟨-, ses', ev, hrec, ⟨-, rfl⟩ | ⟨e, he, -, -, rfl⟩⟩ := Machine.feedByte_eq_next h
  · exact .inl rfl
  · obtain ⟨hallowed, -, hidle⟩ := Machine.receive_event hrec he
    refine .inr ⟨e.entry, rfl, Machine.isEvent_entry e, hidle, hallowed.imp_right ?_⟩
    rintro ⟨hd, h19, hsum⟩
    exact ⟨hd, hidle.2.1, by omega, hsum⟩

/-- Settles O25: the byte is received where the table of R36 holds, and its two columns are those of R153. -/
theorem transitionRelationIsComplete : Obligations.TransitionRelationIsComplete := by
  intro b s hi hr hq
  have ht := hi.table hr.1
  obtain ⟨ses', ev, hrec⟩ := hi.exists_receive hr.1 b
  obtain ⟨t, hfeed, rfl, htrace⟩ := Machine.feedByte_delivered hr hq hrec
  have hnext := Machine.receive_nextDetectState hrec ht
  refine ⟨t, hfeed, hnext, ?_, fun ⟨hd, hwait⟩ => ?_⟩
  · rw [htrace, ← Machine.delivered_ne_nil_iff ht hrec]
    simp
  · rw [Machine.receive_ended hrec hd (hnext.trans hwait)]
    exact Machine.ended_idle _ _

/-- Settles O26: each byte brings the message nearer to its end, and R36 bounds how far that is. -/
theorem recoveryWithinEighteenFeeds : Obligations.RecoveryWithinEighteenFeeds := by
  intro s bytes hi hr hq hwait hinfo hlen
  obtain ⟨-, hbound⟩ := (hi.table hr.1).messageLength_bounds ⟨hwait, hinfo⟩
  exact Machine.feedBytes_recovers hi ⟨hr, hq⟩ ⟨hwait, hinfo⟩ (hlen ▸ hbound)

/-- Settles O29: every byte of the instruction is received, and the invariant holds again after it. -/
theorem receptionAlwaysCompletes : Obligations.ReceptionAlwaysCompletes := by
  intro i s hrec hi hr hq
  rw [Machine.exec_of_receives hrec]
  obtain ⟨t, ht, hinv, hready, hquiet⟩ := Machine.feedBytes_completes (serialBytes i) hi ⟨hr, hq⟩
  exact ⟨t, ht, hinv, hready, hquiet⟩

/-- Settles O44: the sum of the changed payload is another byte, so the checksum test fails. -/
theorem changedStatusPayloadIsDropped : Obligations.ChangedStatusPayloadIsDropped := by
  intro payload k x s hlen hk hx hr hidle hq
  have hsum := Machine.sumMod256_set_ne (hlen ▸ hk) hx
  have hchanged : (payload.set k x).length = 16 := List.length_set.trans hlen
  generalize payload.set k x = changed at hsum hchanged ⊢
  match changed, hchanged with
  | rsv0 :: rxErr :: txErr :: rsv1, hchanged =>
    have hl : rsv1.length = 13 := by simpa using hchanged
    obtain ⟨t, ht, hsession, htrace⟩ := Machine.feedBytes_statusReport (sumMod256 (0x04 :: payload)) hl hr hidle hq
    refine ⟨t, ht, ?_, by rw [hsession]; exact hidle⟩
    rw [htrace, if_neg fun h => hsum h.1, List.append_nil]

/-- Settles O14, by whether the byte is the start byte. -/
theorem feedInWaitStart : Obligations.FeedInWaitStart := by
  intro b s hr hd
  have hrun := Machine.feedByte_none hr (Machine.receive_waitStart b hd)
  refine ⟨fun hb => ?_, fun hb => ?_⟩
  · rw [if_pos hb] at hrun
    exact hrun
  · rw [if_neg hb] at hrun
    exact hrun

/-- Settles O15, by the value of the byte. -/
theorem feedInFrameInfo : Obligations.FeedInFrameInfo := by
  intro b s hr hd
  have hrun := Machine.feedByte_none hr (Machine.receive_frameInfo_cases b hd)
  have h55 (hb : 192 ≤ b.toNat) : b ≠ 0x55 := by rintro rfl; exact absurd hb (by decide)
  refine ⟨fun hb => ?_, fun hb hdlc => ?_, fun hb hdlc => ?_, fun hb hne => ?_⟩
  · rw [if_pos hb] at hrun
    exact hrun
  · rw [if_neg (h55 hb), if_pos hb, if_pos hdlc] at hrun
    exact hrun
  · rw [if_neg (h55 hb), if_pos hb, if_neg (by omega)] at hrun
    exact hrun
  · rw [if_neg hne, if_neg (by omega)] at hrun
    exact hrun

/-- Settles O16: the identifier byte of each cursor. -/
theorem feedInIdStd : Obligations.FeedInIdStd := by
  intro b s hr hd
  have hrun (n : Nat) (hc : s.session.cursor = n) (hn : n < 20) :=
    Machine.feedByte_none hr (Machine.receive_id_at b 4 n (.inl ⟨hd, rfl⟩) hc hn)
  exact ⟨fun hc => hrun 2 hc (by decide), fun hc => hrun 3 hc (by decide)⟩

/-- Settles O17: the identifier byte of each cursor. -/
theorem feedInIdExt : Obligations.FeedInIdExt := by
  intro b s hr hd
  have hrun (n : Nat) (hc : s.session.cursor = n) (hn : n < 20) :=
    Machine.feedByte_none hr (Machine.receive_id_at b 6 n (.inr ⟨hd, rfl⟩) hc hn)
  exact ⟨fun hc => hrun 2 hc (by decide), fun hc => hrun 3 hc (by decide), fun hc => hrun 4 hc (by decide),
    fun hc => hrun 5 hc (by decide)⟩

/-- Settles O18: every byte is a data byte. -/
theorem feedInData : Obligations.FeedInData := by
  intro b s hr hd hc
  have hrun := Machine.feedByte_none hr (Machine.receive_data b _ hd hc rfl)
  rw [Machine.dataEnd_eq] at hrun
  exact hrun

/-- Settles O19, by whether the frame is delivered. -/
theorem feedInEof : Obligations.FeedInEof := by
  rintro b s f after hr hd hc h14 hf rfl
  have hrec := Machine.receive_eof_at b hd (by omega) hc
  rw [← hf] at hrec
  have hid : idNumber s.session.pendingId = f.id.toNat := by
    rw [hf, Machine.ofNat_idNumber, Machine.toNat_idBytes_value]
  have hkind : s.session.pendingType = f.kind := by rw [hf]
  rw [hid, hkind] at hrec
  have hdelivered := Machine.delivered_ite (b = 0x55 ∧ f.id.toNat ≤ idMax f.kind) (.frame f) s.session
  have hdropped := Machine.feedByte_of_not_delivered hr hrec
  rw [hdelivered] at hdropped
  refine ⟨fun hb => hdropped ?_, fun _ hout => hdropped ?_, fun _ _ hs => hdropped ?_,
    fun hb hin hs => Machine.feedByte_of_delivered hr hrec ?_⟩
  · rw [if_neg fun h => hb h.1.1]
  · rw [if_neg fun h => absurd h.1.2 (by omega)]
  · rw [if_neg fun h => by simp [Machine.Event.sinkPresent, hs] at h]
  · rw [hdelivered, if_pos ⟨⟨hb, hin⟩, hs⟩]
    rfl

/-- Settles O20, by the cursor, and at the last byte by whether the report is delivered. -/
theorem feedInControllerStatus : Obligations.FeedInControllerStatus := by
  rintro b s sum after hr hd hsum rfl
  have hbyte (n : Nat) (hc : s.session.cursor = n) (hn : n < 19) (h2 : n = 2 → b = 0x04) :=
    Machine.feedByte_none hr (Machine.receive_statusByte s.session b n hd hc hn h2)
  have hdelivered := Machine.delivered_ite (sum = b) (.status s.session.pendingTxErr s.session.pendingRxErr) s.session
  have hlast (hc : s.session.cursor = 19) := Machine.receive_statusLast b hd hc
  rw [← hsum] at hlast
  refine ⟨fun hc hb => Machine.feedByte_none hr (Machine.receive_otherDisc hd hc hb), fun hc => ?_,
    fun hc => hbyte 4 hc (by decide) nofun, fun hc => hbyte 5 hc (by decide) nofun,
    fun hc hb => Machine.feedByte_of_not_delivered hr (hlast hc) ?_,
    fun hc _ hs => Machine.feedByte_of_not_delivered hr (hlast hc) ?_,
    fun hc hb hs => Machine.feedByte_of_delivered hr (hlast hc) ?_⟩
  · have h := hbyte s.session.cursor rfl (by omega) fun h2 => hc.elim And.right fun hc => absurd h2 (by omega)
    rw [if_neg (by omega), if_neg (by omega)] at h
    exact h
  · rw [hdelivered, if_neg fun h => hb h.1.symm]
  · rw [hdelivered, if_neg fun h => by simp [Machine.Event.sinkPresent, hs] at h]
  · rw [hdelivered, if_pos ⟨hb.symm, hs⟩]
    rfl

end Sys2Proof
end

section
/-! INIT and DEINIT of a serialized caller (42_session.md R191, R192): the entry checks by lifecycle, then the one body
each of them runs. -/

namespace Sys2Proof

namespace Machine

section
variable {s : State} {body : State → Out} (ho : s.overlapping = false)
include ho

/-! ### The entry checks by lifecycle -/

/-- R216 step 2: no operation but INIT starts on a released Session. -/
theorem guarded_released {c : OpClass} (hl : s.session.life = .released) (hc : c ≠ .init) :
    guarded c s body = .fault .useAfterDeinit := by
  unfold guarded
  rw [if_neg (by simp [ho]), hl]
  cases c with
  | init => exact absurd rfl hc
  | _ => rfl

theorem guarded_deinit_absent (hl : s.session.life = .absent) :
    guarded .deinit s body = .fault .deinitNoSession := by
  unfold guarded
  rw [if_neg (by simp [ho]), hl]

theorem guarded_init_live (hl : s.session.life = .live) : guarded .init s body = .fault .initWhileLive := by
  unfold guarded
  rw [if_neg (by simp [ho]), hl]

/-- INIT starts where no Session is live and no sink call is in progress (R216). -/
theorem guarded_init_of_not_live (hl : s.session.life ≠ .live) (hp : s.sinkCallInProgress = false) :
    guarded .init s body = body (s.returning none) := by
  have hstart : afterLifecycle s body = body (s.returning none) := if_neg (by simp [hp])
  unfold guarded
  rw [if_neg (by simp [ho]), ← hstart]
  cases h : s.session.life with
  | live => exact absurd h hl
  | absent | released => rfl

/-! ### INIT's draw -/

/-- Where INIT starts, its result is the one of the answer drawn. -/
theorem execInit_of_drawn {sinks : Sinks} {ok : Bool} (hl : s.session.life ≠ .live)
    (hp : s.sinkCallInProgress = false) (hdraw : (drawInit s).1 = ok) :
    execInit sinks s = .next (initResult sinks ok (drawInit s).2) := by
  subst hdraw
  exact guarded_init_of_not_live ho hl hp

end

theorem drawInit_of_answer {s : State} {ok : Bool} {rest : List Bool} (h : s.initAnswers = ok :: rest) :
    (drawInit s).1 = ok := by
  simp [drawInit, h]

end Machine

/-- Settles O2, by the answer drawn; the fresh buffer's epoch is the number of draws after it. -/
theorem initCreatesFreshSession : Obligations.InitCreatesFreshSession := by
  refine fun sinks s ho => ⟨Machine.guarded_init_live ho, fun hl hp => ⟨s.draws + 1, ?_⟩⟩
  rintro created failed rfl rfl
  have hrun (ok : Bool) := Machine.execInit_of_drawn (sinks := sinks) (ok := ok) ho hl hp
  refine ⟨fun rest h => hrun true (Machine.drawInit_of_answer h),
    fun rest h => hrun false (Machine.drawInit_of_answer h), ?_⟩
  cases hdraw : (Machine.drawInit s).1 with
  | true => exact .inl (hrun true hdraw)
  | false => exact .inr (hrun false hdraw)

/-- Settles O3, by the entry checks; the body writes `life`. -/
theorem deinitReleasesSession : Obligations.DeinitReleasesSession := fun _ ho =>
  ⟨fun hl => Machine.guarded_released ho hl (by decide), Machine.guarded_deinit_absent ho,
    Machine.guarded_live_inProgress ho, fun hr => Machine.guarded_ready _ hr (by decide)⟩

end Sys2Proof
end

section
/-! The exceptions of 60_exceptions.md: the entry checks of the seven host operations in their order (R216), the causes
of `InvalidArgument` (R211), and what a drop leaves behind (R213). -/

namespace Sys2Proof

open Spec

namespace Machine

/-! ### The entry checks of a host operation -/

/-- Every host operation is its entry checks and, past them, a body of its own (R216). -/
theorem exec_eq_guarded {i : Instr} (hp : i.port = .host) (hi : ∀ r, i ≠ .illFormedRecord r) :
    ∃ body, ∀ s, exec i s = guarded (hostOpClass i) s body := by
  cases i with
  | feed | encFrame | encConfig | encFilter | encCancel | init | deinit => exact ⟨_, fun _ => rfl⟩
  | illFormedRecord r => exact absurd rfl (hi r)
  | _ => cases hp

/-- INIT alone is of the class that may start without a live Session. -/
theorem hostOpClass_ne_init {i : Instr} (hi : ∀ sinks, i ≠ .init sinks) : hostOpClass i ≠ .init := by
  cases i with
  | init sinks => exact absurd rfl (hi sinks)
  | _ => exact nofun

/-- R216 step 1. -/
theorem guarded_overlapping {c : OpClass} {s : State} {body : State → Out} (ho : s.overlapping = true) :
    guarded c s body = .refused .concurrentCall :=
  if_pos ho

/-- R216 step 3 where INIT has passed step 2. -/
theorem guarded_init_inProgress {s : State} {body : State → Out} (ho : s.overlapping = false)
    (hl : s.session.life ≠ .live) (hp : s.sinkCallInProgress = true) :
    guarded .init s body = .fault .reentrantCall := by
  have hstop : afterLifecycle s body = .fault .reentrantCall := if_pos hp
  unfold guarded
  rw [if_neg (by simp [ho]), ← hstop]
  cases h : s.session.life with
  | live => exact absurd h hl
  | absent | released => rfl

/-! ### The causes of InvalidArgument -/

/-- The operand check of an encoder operation is the one of R211. -/
theorem exec_of_isEncoder_iff {i : Instr} (hi : isEncoder i = true) :
    ∃ valid bytes, (valid = true ↔ operandsValid i) ∧ ∀ s, exec i s = encoderOp valid bytes s := by
  cases i with
  | encFrame _ _ dlc => exact ⟨_, _, encFrameValid_iff dlc, fun _ => rfl⟩
  | encFilter ids => exact ⟨_, _, encFilterValid_iff ids, fun _ => rfl⟩
  | encConfig | encCancel => exact ⟨true, _, iff_of_true rfl trivial, fun _ => rfl⟩
  | _ => cases hi

/-- The rows of R211 that are about operands. -/
theorem not_operandsValid_iff {i : Instr} (hi : isEncoder i = true) : ¬ operandsValid i ↔
    (∃ kind id dlc data, i = .encFrame kind id dlc data ∧ 8 < dlc.toNat) ∨
    (∃ ids, i = .encFilter ids ∧ (ids = [] ∨ 255 < ids.length)) := by
  cases i with
  | encFrame kind id dlc data => simp [operandsValid]
  | encFilter ids =>
    have hcount : ¬ operandsValid (.encFilter ids) ↔ ids = [] ∨ 255 < ids.length := by
      rw [operandsValid, ← List.length_eq_zero_iff]
      omega
    simp [hcount]
  | encConfig | encCancel => simp [operandsValid]
  | _ => cases hi

/-- No answer of the byte sink is passed on as InvalidArgument (R212). -/
theorem toResult_ne_invalidArgument (a : SinkAnswer) : SinkAnswer.toResult a ≠ .invalidArgument := by
  cases a <;> exact nofun

/-- Where the bytes are handed to `SendBytes`, the result is not InvalidArgument. -/
theorem sendBytes_returned_ne {bytes : List Byte} {s t : State} (hl : s.session.life = .live)
    (h : sendBytes bytes s = .next t) : t.returned ≠ some (.encoder .invalidArgument) := by
  obtain ⟨-, rfl⟩ | ⟨-, -, rfl⟩ := sendBytes_eq_next hl h
  · simp
  · simp [toResult_ne_invalidArgument]

/-- An encoder operation that completes rejects a null handle or its operands with nothing but the result, or passes
both checks and returns another result (R211). -/
theorem encoderOp_rejects_or_not {valid : Bool} {bytes : List Byte} {s t : State}
    (h : encoderOp valid bytes s = .next t) :
    ((s.session.life = .absent ∨ valid = false) ∧ t = s.encoderReturns .invalidArgument) ∨
    (¬ (s.session.life = .absent ∨ valid = false) ∧ t.returned ≠ some (.encoder .invalidArgument)) := by
  obtain ⟨-, ⟨hl, rfl⟩ | ⟨hl, -, ⟨hv, rfl⟩ | ⟨hv, hsend⟩⟩⟩ := encoderOp_eq_next h
  · exact .inl ⟨.inl hl, rfl⟩
  · exact .inl ⟨.inr hv, rfl⟩
  · exact .inr ⟨by simp [hl, hv], sendBytes_returned_ne (s := s.returning none) hl hsend⟩

/-! ### What a drop leaves behind -/

/-- The Session after a byte that meets a drop, by the lines of R213: an ignored byte leaves it as it was, a discarded one
goes on waiting in `FrameInfo`, and every other drop runs ResetMessage. -/
def Drop.after (d : Drop) (ses : Session) (b : Byte) : Session :=
  match d with
  | .ignored => ses
  | .discardUnrecognized => { ses with rxBuffer := stored ses 1 b, cursor := 1 }
  | .dropDlcInvalid | .dropBadTerminator | .dropIdRange | .dropBadDiscriminator | .dropChecksum =>
    ended ses (stored ses (if ses.detectState = .frameInfo then 1 else ses.cursor) b)

theorem Drop.after_of_reset {d : Drop} (ses : Session) (b : Byte) (hi : d ≠ .ignored) (hd : d ≠ .discardUnrecognized) :
    d.after ses b = ended ses (stored ses (if ses.detectState = .frameInfo then 1 else ses.cursor) b) := by
  cases d with
  | ignored => exact absurd rfl hi
  | discardUnrecognized => exact absurd rfl hd
  | _ => rfl

/-- A byte that meets a drop completes no event, and the drop says what it leaves behind. -/
theorem receive_of_dropOf {b : Byte} {ses : Session} {d : Drop} (ht : ses.Table) (h : dropOf b ses = some d) :
    receive b ses = .ok (d.after ses b, none) := by
  have hlt := ht.cursor_lt
  obtain ⟨-, -, -, -, -, heof, -⟩ := ht
  unfold dropOf at h
  cases hd : ses.detectState with
  | waitStart =>
    simp only [hd] at h
    obtain ⟨hb, h⟩ := Option.ite_none_right_eq_some.1 h
    obtain rfl := Option.some.inj h
    rw [receive_waitStart b hd, if_neg hb]
    rfl
  | frameInfo =>
    simp only [hd] at h
    rw [receive_frameInfo b _ hd rfl]
    split_ifs at h with h55 hc hdlc <;> obtain rfl := Option.some.inj h
    · rw [if_neg h55, if_pos hc, if_pos hdlc, Drop.after, if_pos hd, ended_eq_resetMessage, stored]
    · rw [if_neg h55, if_neg hc]
      rfl
  | idStd | idExt | data => simp [hd] at h
  | eof =>
    obtain ⟨hc, -⟩ := heof hd
    simp only [hd] at h
    rw [receive_eof b (stored ses ses.cursor b) _ hd hlt hc rfl rfl]
    split_ifs at h with hb hid <;> obtain rfl := Option.some.inj h
    · rw [if_neg fun hev => hb hev.1, Drop.after, if_neg (by simp [hd]), ended_eq_resetMessage]
    · rw [if_neg fun hev => hid hev.2, Drop.after, if_neg (by simp [hd]), ended_eq_resetMessage]
  | controllerStatus =>
    simp only [hd] at h
    split_ifs at h with hdisc hsum <;> obtain rfl := Option.some.inj h
    · rw [receive_otherDisc hd hdisc.1 hdisc.2, Drop.after, if_neg (by simp [hd])]
    · rw [receive_controllerStatus b (stored ses ses.cursor b) hd hlt rfl, if_pos hsum.1, if_neg (by simp [hsum.2]),
        Drop.after, if_neg (by simp [hd]), ended_eq_resetMessage]

end Machine

/-- Settles O4: each host operation is guarded by the checks of its class, and the first that applies decides. -/
theorem entryChecksInOrder : Obligations.EntryChecksInOrder := by
  intro i s hp hi
  obtain ⟨body, hrun⟩ := Machine.exec_eq_guarded hp hi
  refine ⟨fun ho => ?_, fun ho => ⟨fun hl hinit => ?_, fun hl => ⟨?_, ?_, fun henc => ?_⟩, ?_, fun hc hlife => ?_⟩⟩
  · rw [hrun s, Machine.guarded_overlapping ho]
  · rw [hrun s, Machine.guarded_released ho hl (Machine.hostOpClass_ne_init hinit)]
  · rintro b rfl
    exact Machine.feedByte_absent ho hl
  · rintro rfl
    exact Machine.guarded_deinit_absent ho hl
  · obtain ⟨valid, bytes, hrun⟩ := Machine.exec_of_isEncoder henc
    rw [hrun s, Machine.encoderOp_absent ho hl]
    rfl
  · rintro hl sinks rfl
    exact Machine.guarded_init_live ho hl
  · obtain ⟨hl, hinit⟩ | ⟨hl, sinks, rfl⟩ := hlife
    · rw [hrun s, Machine.guarded_live_inProgress ho hl hc, if_neg (Machine.hostOpClass_ne_init hinit)]
    · exact Machine.guarded_init_inProgress ho hl hc

/-- Settles O12, by the outcomes of the template: it rejects by its two checks and in no other way. -/
theorem invalidArgumentHasExactlyItsCauses : Obligations.InvalidArgumentHasExactlyItsCauses := by
  intro i s t hi h
  obtain ⟨valid, bytes, hvalid, hrun⟩ := Machine.exec_of_isEncoder_iff hi
  rw [hrun] at h
  rw [← Machine.not_operandsValid_iff hi, ← hvalid, Bool.not_eq_true]
  obtain ⟨hcause, rfl⟩ | ⟨hcause, hret⟩ := Machine.encoderOp_rejects_or_not h
  · exact ⟨iff_of_true rfl hcause, fun _ => rfl⟩
  · exact ⟨iff_of_false hret hcause, fun hret' => absurd hret' hret⟩

/-- Settles O27: no drop completes an event, so no sink is called. -/
theorem dropsAreSilent : Obligations.DropsAreSilent := by
  intro b s d hi hr hd
  have hrec := Machine.receive_of_dropOf (hi.table hr.1) hd
  refine ⟨_, Machine.feedByte_none hr hrec, rfl, rfl, ?_, ?_, Machine.Drop.after_of_reset s.session b⟩
  · rintro rfl
    rfl
  · rintro rfl
    rfl

end Sys2Proof
end

section
/-! Reset and hazards (70_reset_and_hazards.md): what power-on leaves (R240), a sink that is gone at its call (R244), and
`FrameInfo` fed nothing it recognizes (R245, R246). -/

namespace Sys2Proof

namespace Machine

/-- Bytes that `FrameInfo` does not recognize overwrite the buffer's second byte and nothing else (R143, R246). -/
theorem silentRun_frameInfo_unrecognized {bytes : List Byte} {ses : Session} (hd : ses.detectState = .frameInfo)
    (hc : ses.cursor = 1) (hbytes : ∀ b ∈ bytes, b ≠ 0x55 ∧ b.toNat < 192) :
    ∃ buf, SilentRun bytes ses { ses with rxBuffer := buf } := by
  induction bytes generalizing ses with
  | nil => exact ⟨ses.rxBuffer, .nil ses⟩
  | cons b bytes ih =>
    obtain ⟨⟨h55, hlt⟩, hrest⟩ := List.forall_mem_cons.1 hbytes
    have hrec := receive_frameInfo_cases b hd
    rw [if_neg h55, if_neg (by omega), ← hc] at hrec
    obtain ⟨buf, hrun⟩ := ih (ses := { ses with rxBuffer := Spec.stored ses ses.cursor b }) hd hc hrest
    exact ⟨buf, .cons hrec hrun⟩

end Machine

/-- Settles O28: an induction over the bytes, each of which writes the buffer only. -/
theorem frameInfoKeepsWaiting : Obligations.FrameInfoKeepsWaiting := by
  intro bytes s hr hd hc hbytes
  cases bytes with
  | nil => exact ⟨s, rfl, rfl, hd, hc, rfl, rfl⟩
  | cons b bytes =>
    obtain ⟨buf, hrun⟩ := Machine.silentRun_frameInfo_unrecognized hd hc hbytes
    obtain ⟨hfeeds, -⟩ := hrun.feedBytes hr rfl (.inr (List.cons_ne_nil b bytes))
    exact ⟨_, hfeeds, rfl, hd, hc, rfl, rfl⟩

/-- Settles O59: the operation comes to its sink call, and the sink is gone. -/
theorem callingAnInvalidSinkStops : Obligations.CallingAnInvalidSinkStops := by
  intro s rest i hr hconduct hcalls
  obtain ⟨k, hrun⟩ := Machine.exec_callsSink hr hcalls
  have hgone : Machine.sinkCall (s.returning none) = .fault .invalidSink := Machine.sinkCall_gone (by simp [hconduct])
  rw [hrun, hgone, Machine.andThen_fault]

/-- Settles O1: with no Session each operation stops at its entry checks (R216). -/
theorem powerOnHasNoSession : Obligations.PowerOnHasNoSession := by
  have ho : Machine.State.reset.overlapping = false := rfl
  have hl : Machine.State.reset.session.life = .absent := rfl
  obtain ⟨-, hdeinit, -⟩ := deinitReleasesSession _ ho
  refine ⟨hl, rfl, rfl, fun b => Machine.feedByte_absent (b := b) ho hl, hdeinit hl, fun i hi => ?_⟩
  obtain ⟨valid, bytes, hrun⟩ := Machine.exec_of_isEncoder hi
  rw [hrun, Machine.encoderOp_absent ho hl]
  rfl

end Sys2Proof
end
